-- ==== Sys2Proof/Word.lean ====
section
/-!
DEFINITION. The words the two streaming units move, with the widths of rule R6 and rules R39 to R42, and the digit type.

A digit is an index into the 45-character alphabet (R51), so it is `Fin 45`: the values 45 to 63 of a 6-bit field
"never occur" (R6), and the encoder's table is addressed only inside its range (R52, R58).
-/

namespace Sys2Proof

/-- A byte: 8 bits, unsigned (R6); a character lane holds one 8-bit code (R43). -/
abbrev Byte := BitVec 8

/-- Encoder input beat word (R39). -/
abbrev Eib := BitVec 17

/-- Encoder output beat word (R40). -/
abbrev Eob := BitVec 26

/-- Decoder input beat word (R41). -/
abbrev Dib := BitVec 27

/-- Decoder output beat word (R42). -/
abbrev Dob := BitVec 27

/-- A set of error flags, bit 0 `ic`, bit 1 `il`, bit 2 `do` (R20, R89); the register `FF` has this form. -/
abbrev FrameFlags := BitVec 3

/-- The two-bit error code of an output beat (R89). -/
abbrev ErrorCode := BitVec 2

/-- A base-45 digit (R6). -/
abbrev Digit := Fin 45

end Sys2Proof
end

