-- ==== Sys2Proof/Config.lean ====
section
/-!
DEFINITION. What an implementation fixes (rule R5) and the values the spec leaves free (rule R25).

The four parameters of R5 are OPEN in the spec. "The model takes each of these as an argument": the argument is the field
`params` of the state, which no step changes, so a statement about every state is a statement about every choice of them.
-/

namespace Sys2Proof

/-- The implementation parameters of R5: latency and depth of each unit. -/
structure Params where
  latEnc   : Nat
  latDec   : Nat
  depthEnc : Nat
  depthDec : Nat
  deriving DecidableEq, Repr

/-- One stage of pipeline, one beat held, in each unit: the configuration of program P7 (95_test_vectors.md).
DESIGN CHOICE (log entry 1): the spec leaves the four parameters open. -/
def Params.reference : Params := ⟨1, 1, 1, 1⟩

/-- What `out_beat` of the encoder shows in its n-th cycle when `out_valid = 0`: "a free draw" (R25, S1). -/
opaque Config.freeEncOutBeat : Nat → Eob

/-- What `out_beat` of the decoder shows in its n-th cycle when `out_valid = 0` (R25, S1). -/
opaque Config.freeDecOutBeat : Nat → Dob

end Sys2Proof
end

