-- ==== Sys2Proof/Syntax.lean ====
section
/-!
DEFINITION. The operations an input beat selects (rule R45), one constructor per row of spec/opcode_table.json.

A constructor carries every lane of its beat word, the ignored ones too (named `x…`, R47), so that a beat word and its
operation determine each other. Every term is a legal beat (R46): there is no ill-formed operation.
-/

namespace Sys2Proof

/-- An operation with its operands, in the order of the beat's lanes (R39, R41, R44). -/
inductive Instr where
  /-- `ENC1`: one trailing byte to two characters (R61). -/
  | enc1 (b0 x1 : Byte)
  /-- `ENC2`: a byte pair to three characters (R60). -/
  | enc2 (b0 b1 : Byte)
  /-- `DEC0`: the empty chunk (R72). -/
  | dec0 (last : Bool) (x0 x1 x2 : Byte)
  /-- `DEC1`: a dangling single digit (R71). -/
  | dec1 (last : Bool) (ch0 x1 x2 : Byte)
  /-- `DEC2`: a pair of digits to one byte (R69). -/
  | dec2 (last : Bool) (ch0 ch1 x2 : Byte)
  /-- `DEC3`: a triple of digits to two bytes (R68). -/
  | dec3 (last : Bool) (ch0 ch1 ch2 : Byte)
  deriving DecidableEq, Repr

/-- An input beat as it stands on a wire: the word at `in_beat` of one of the two units (R12, R13). -/
inductive Beat where
  | eib (w : Eib)
  | dib (w : Dib)
  deriving DecidableEq, Repr

/-- Why a number of a given width is no beat word of either unit (R49: 17 bits or 27 bits, nothing else). -/
inductive DecodeReject where
  /-- The width in whole bytes fits neither format. -/
  | noSuchFormat (nbits : Nat)
  /-- A bit above the beat word is set. -/
  | paddingSet (nbits w : Nat)
  deriving DecidableEq, Repr

/-- The two units of R1. -/
inductive UnitName where
  | encoder
  | decoder
  deriving DecidableEq, Repr

end Sys2Proof
end

