-- ==== Sys2Proof/Decode.lean ====
section
/-!
DEFINITION. Beat words to operations and back (rules R39, R41, R44, R45; spec/opcode_table.json).

Decoding a beat word is total and never rejects (R46). A number of bits that is no beat word is rejected by name.
-/

namespace Sys2Proof

/-- `EIB.two` (R39). -/
def eibTwo (w : Eib) : Bool := w.getLsbD 16

/-- `EIB.b0`, the first byte of the group (R39). -/
def eibB0 (w : Eib) : Byte := w.extractLsb' 8 8

/-- `EIB.b1`, the second byte of the group (R39). -/
def eibB1 (w : Eib) : Byte := w.extractLsb' 0 8

/-- `DIB.last` (R41). -/
def dibLast (w : Dib) : Bool := w.getLsbD 26

/-- `DIB.nchars` (R41). -/
def dibCount (w : Dib) : BitVec 2 := w.extractLsb' 24 2

/-- `DIB.ch0`, the first character (R41). -/
def dibCh0 (w : Dib) : Byte := w.extractLsb' 16 8

/-- `DIB.ch1`, the second character (R41). -/
def dibCh1 (w : Dib) : Byte := w.extractLsb' 8 8

/-- `DIB.ch2`, the third character (R41). -/
def dibCh2 (w : Dib) : Byte := w.extractLsb' 0 8

/-- The operation of an encoder beat (R45, encoder rows). -/
def decodeEib (w : Eib) : Instr :=
  if eibTwo w then .enc2 (eibB0 w) (eibB1 w) else .enc1 (eibB0 w) (eibB1 w)

/-- The operation of a decoder beat (R45, decoder rows); `last` does not select it. -/
def decodeDib (w : Dib) : Instr :=
  if dibCount w = 0#2 then .dec0 (dibLast w) (dibCh0 w) (dibCh1 w) (dibCh2 w)
  else if dibCount w = 1#2 then .dec1 (dibLast w) (dibCh0 w) (dibCh1 w) (dibCh2 w)
  else if dibCount w = 2#2 then .dec2 (dibLast w) (dibCh0 w) (dibCh1 w) (dibCh2 w)
  else .dec3 (dibLast w) (dibCh0 w) (dibCh1 w) (dibCh2 w)

/-- The operation a beat selects. -/
def decode : Beat → Instr
  | .eib w => decodeEib w
  | .dib w => decodeDib w

/-- Lay out an encoder beat word, `b0` in the more significant lane (R31, R39). -/
def packEib (two : Bool) (b0 b1 : Byte) : Eib :=
  BitVec.ofBool two ++ b0 ++ b1

/-- Lay out a decoder beat word, the first character in the most significant lane (R31, R41). -/
def packDib (last : Bool) (nchars : BitVec 2) (ch0 ch1 ch2 : Byte) : Dib :=
  BitVec.ofBool last ++ nchars ++ ch0 ++ ch1 ++ ch2

/-- The beat word of an operation (R39, R41, R50). -/
def encode : Instr → Beat
  | .enc1 b0 x1 => .eib (packEib false b0 x1)
  | .enc2 b0 b1 => .eib (packEib true b0 b1)
  | .dec0 last x0 x1 x2 => .dib (packDib last 0#2 x0 x1 x2)
  | .dec1 last ch0 x1 x2 => .dib (packDib last 1#2 ch0 x1 x2)
  | .dec2 last ch0 ch1 x2 => .dib (packDib last 2#2 ch0 ch1 x2)
  | .dec3 last ch0 ch1 ch2 => .dib (packDib last 3#2 ch0 ch1 ch2)

/-- The beat that a number `w` of `nbits` bits stands for: up to three bytes hold an encoder word, a fourth byte a decoder
word. The spec stores no beat in bytes; the padding to whole bytes is the opcode table's (log entry 3). -/
def beatOfWord (nbits w : Nat) : Except DecodeReject Beat :=
  if nbits ≤ 24 then
    if w < 2 ^ 17 then .ok (.eib (BitVec.ofNat 17 w)) else .error (.paddingSet nbits w)
  else if nbits ≤ 32 then
    if w < 2 ^ 27 then .ok (.dib (BitVec.ofNat 27 w)) else .error (.paddingSet nbits w)
  else .error (.noSuchFormat nbits)

/-- Decode a number of `nbits` bits, or say by name why it is no beat. -/
def decodeWord (nbits w : Nat) : Except DecodeReject Instr :=
  match beatOfWord nbits w with
  | .ok b => .ok (decode b)
  | .error r => .error r

/-- The operation read from a word numbered as spec/opcode_table.json numbers it. -/
def decodeTableWord (nbits w : Nat) : Option Instr :=
  match decodeWord nbits w with
  | .ok i => some i
  | .error _ => none

end Sys2Proof
end

