-- ==== Sys2Proof/Machine/Operands.lean ====
section
/-!
DEFINITION. The constant tables (rules R51 to R54), the digit arithmetic (R28, R57, R68, R69) and the layout of the output
beat words (R40, R42). The operand lanes of the input beats are in Decode.lean.
-/

namespace Sys2Proof.Machine

/-- `ENC_LUT`, the 8-bit code of each digit's character (R52). -/
def encTable : List Byte :=
  [0x30, 0x31, 0x32, 0x33, 0x34, 0x35, 0x36, 0x37, 0x38, 0x39] ++
  [0x41, 0x42, 0x43, 0x44, 0x45, 0x46, 0x47, 0x48, 0x49, 0x4A, 0x4B, 0x4C, 0x4D] ++
  [0x4E, 0x4F, 0x50, 0x51, 0x52, 0x53, 0x54, 0x55, 0x56, 0x57, 0x58, 0x59, 0x5A] ++
  [0x20, 0x24, 0x25, 0x2A, 0x2B, 0x2D, 0x2E, 0x2F, 0x3A]

/-- `DIGIT_TO_CHAR(v) = ENC_LUT[v]` (R52). The default is never read: a digit is below 45 and the table has 45 rows. -/
def encLut (v : Digit) : Byte := encTable.getD v.val 0

/-- `FOLD` (R53): the 26 ASCII lower-case letters to upper case, every other code unchanged. -/
def fold (ch : Byte) : Byte :=
  if 0x61#8 ≤ ch ∧ ch ≤ 0x7A#8 then ch - 0x20#8 else ch

/-- What `DEC_LUT` gives for a code: is it a character of the alphabet, and its digit (R54). -/
structure Lookup where
  ok : Bool
  v  : Digit
  deriving DecidableEq, Repr

/-- `CHAR_TO_DIGIT(ch) = DEC_LUT[ch]` (R54); the digit of a failed lookup is fixed at 0. -/
def decLut (ch : Byte) : Lookup :=
  match (List.finRange 45).find? (fun v => encLut v == fold ch) with
  | some v => ⟨true, v⟩
  | none => ⟨false, 0⟩

/-- `x = b0*256 + b1`, the big-endian value of a byte pair (R28). -/
def pairWord (b0 b1 : Byte) : BitVec 16 := b0 ++ b1

/-- The digits of weight 1, 45 and 2025. -/
structure Digits where
  c : Digit
  d : Digit
  e : Digit
  deriving DecidableEq, Repr

/-- `DIVMOD2025` (R57). -/
def divmod2025 (x : BitVec 16) : Digits :=
  { c := ⟨x.toNat % 2025 % 45, by omega⟩
    d := ⟨x.toNat % 2025 / 45, by omega⟩
    e := ⟨x.toNat / 2025, by omega⟩ }

/-- The digit of weight 1 of a single byte (R61). -/
def byteC (b0 : Byte) : Digit := ⟨b0.toNat % 45, by omega⟩

/-- The digit of weight 45 of a single byte (R61). -/
def byteD (b0 : Byte) : Digit := ⟨b0.toNat / 45, by omega⟩

/-- `x = c + d*45`, the value of a pair of digits, exact (R69). -/
def pairValue (c d : Digit) : Nat := c.val + 45 * d.val

/-- `x = c + d*45 + e*2025`, the value of a triple of digits, exact (R68). -/
def tripleValue (c d e : Digit) : Nat := c.val + 45 * d.val + 2025 * e.val

/-- Lay out an encoder output beat, first character in the most significant lane (R31, R40). -/
def packEob (nchars : BitVec 2) (ch0 ch1 ch2 : Byte) : Eob :=
  nchars ++ ch0 ++ ch1 ++ ch2

/-- `EOB.nchars` (R40). -/
def eobCount (w : Eob) : BitVec 2 := w.extractLsb' 24 2

/-- `EOB.ch0` (R40). -/
def eobCh0 (w : Eob) : Byte := w.extractLsb' 16 8

/-- `EOB.ch1` (R40). -/
def eobCh1 (w : Eob) : Byte := w.extractLsb' 8 8

/-- `EOB.ch2` (R40). -/
def eobCh2 (w : Eob) : Byte := w.extractLsb' 0 8

/-- Lay out a decoder output beat (R42). -/
def packDob (last : Bool) (nbytes : BitVec 2) (bf ff : FrameFlags) (code : ErrorCode) (byte0 byte1 : Byte) : Dob :=
  BitVec.ofBool last ++ nbytes ++ bf ++ ff ++ code ++ byte0 ++ byte1

/-- `DOB.last` (R42). -/
def dobLast (w : Dob) : Bool := w.getLsbD 26

/-- `DOB.nbytes` (R42). -/
def dobCount (w : Dob) : BitVec 2 := w.extractLsb' 24 2

/-- `DOB.beat_flags` (R42). -/
def dobBeatFlags (w : Dob) : FrameFlags := w.extractLsb' 21 3

/-- `DOB.frame_flags` (R42). -/
def dobFrameFlags (w : Dob) : FrameFlags := w.extractLsb' 18 3

/-- `DOB.frame_code` (R42). -/
def dobCode (w : Dob) : ErrorCode := w.extractLsb' 16 2

/-- `DOB.byte0` (R42). -/
def dobByte0 (w : Dob) : Byte := w.extractLsb' 8 8

/-- `DOB.byte1` (R42). -/
def dobByte1 (w : Dob) : Byte := w.extractLsb' 0 8

/-- The byte result of a decoder operation: how many bytes, and the two byte lanes (`BYTES_n` of R67). -/
structure ByteOut where
  count : BitVec 2
  byte0 : Byte
  byte1 : Byte
  deriving DecidableEq, Repr

/-- No bytes; unused lanes are `8'h00` (R48, R66; `BYTES_0` and `BYTES_1` of R67). -/
def bytesNone : ByteOut := ⟨0#2, 0#8, 0#8⟩

/-- `BYTES_2`: one byte, the value modulo 256 with no bound check (R69, R70). -/
def bytesPair (c d : Digit) : ByteOut :=
  ⟨1#2, BitVec.ofNat 8 (pairValue c d % 256), 0#8⟩

/-- `BYTES_3`: high byte, then low byte (R29, R68). -/
def bytesTriple (c d e : Digit) : ByteOut :=
  ⟨2#2, BitVec.ofNat 8 (tripleValue c d e / 256), BitVec.ofNat 8 (tripleValue c d e % 256)⟩

end Sys2Proof.Machine
end

