-- ==== Sys2Proof/Machine/Flags.lean ====
section
/-!
DEFINITION. The decoder's error flags: what one beat detects (rule R65), how the frame's code is ranked (R94) and the codes (R89).
-/

namespace Sys2Proof.Machine

/-- Flags in the bit order `do il ic` (R20, R50). -/
def packFlags (dataOverflow invalidLength invalidCharacter : Bool) : FrameFlags :=
  BitVec.ofBool dataOverflow ++ BitVec.ofBool invalidLength ++ BitVec.ofBool invalidCharacter

/-- Flag `ic`, InvalidCharacter (R20, R89). -/
def flagIc (f : FrameFlags) : Bool := f.getLsbD 0

/-- Flag `il`, InvalidLength (R20, R89). -/
def flagIl (f : FrameFlags) : Bool := f.getLsbD 1

/-- Flag `do`, DataOverflow (R20, R89). -/
def flagDo (f : FrameFlags) : Bool := f.getLsbD 2

/-- `bf.ic`: some used lane is outside the alphabet (R65, R90). -/
def anyInvalid (used : List Lookup) : Bool := used.any (fun l => !l.ok)

/-- `bf.il`: exactly one character (R65, R91). -/
def dangling (used : List Lookup) : Bool := used.length == 1

/-- `bf.do`: three valid characters whose value exceeds 65535 (R65, R92). -/
def overflows : List Lookup → Bool
  | [l0, l1, l2] => !anyInvalid [l0, l1, l2] && decide (65535 < tripleValue l0.v l1.v l2.v)
  | _ => false

/-- The beat flags, from the lookups of the used lanes alone (R65). -/
def beatFlags (used : List Lookup) : FrameFlags :=
  packFlags (overflows used) (dangling used) (anyInvalid used)

/-- Code 0, no error (R89). -/
def codeOk : ErrorCode := 0#2
/-- Code 1, InvalidCharacter (R89). -/
def codeIc : ErrorCode := 1#2
/-- Code 2, InvalidLength (R89). -/
def codeIl : ErrorCode := 2#2
/-- Code 3, DataOverflow (R89). -/
def codeDo : ErrorCode := 3#2

/-- `PRIO`, the frame's code: InvalidCharacter, then DataOverflow, then InvalidLength (R94). -/
def prio (f : FrameFlags) : ErrorCode :=
  if flagIc f then codeIc
  else if flagDo f then codeDo
  else if flagIl f then codeIl
  else codeOk

end Sys2Proof.Machine
end

