-- ==== Sys2Proof/WellFormed.lean ====
section
/-!
DEFINITION. The checks the spec states on what is given to the machine.

No operation is ill formed: every value of a beat word is a legal beat (R46), and the types of `Instr` say so. What can be
ill formed is a choice of the parameters (R5), the written form of a beat (R50), and a sequence of beats that stands for a
message (the host duties R75 and R77).
-/

namespace Sys2Proof

/-- Legal latency and depth of one unit (R5). -/
def legalDepth (lat depth : Nat) : Bool :=
  if lat = 0 then decide (depth = 0) else decide (lat ≤ depth)

/-- The parameters are legal for both units (R5). -/
def Params.legal (p : Params) : Bool :=
  legalDepth p.latEnc p.depthEnc && legalDepth p.latDec p.depthDec

/-- The beat is as the notation of R50 writes it: every ignored lane is `8'h00`. -/
def Instr.written : Instr → Bool
  | .enc1 _ x1 => x1 == 0
  | .enc2 _ _ => true
  | .dec0 _ x0 x1 x2 => x0 == 0 && x1 == 0 && x2 == 0
  | .dec1 _ _ x1 x2 => x1 == 0 && x2 == 0
  | .dec2 _ _ _ x2 => x2 == 0
  | .dec3 _ _ _ _ => true

/-- The beats stand for one byte message: pairs, then at most one trailing byte (R75). -/
def encodeDuty : List Instr → Bool
  | [] => true
  | [.enc1 _ _] => true
  | .enc2 _ _ :: rest => encodeDuty rest
  | _ => false

/-- The beats after the first are triples, but for the closing beat, which carries one, two or three characters and `last`
(R77). -/
def decodeDutyChunks : List Instr → Bool
  | [.dec1 last _ _ _] => last
  | [.dec2 last _ _ _] => last
  | [.dec3 last _ _ _] => last
  | .dec3 last _ _ _ :: rest => !last && decodeDutyChunks rest
  | _ => false

/-- The beats stand for one character string: one frame, `DEC0.L` alone for the empty string (R77). -/
def decodeDuty : List Instr → Bool
  | [.dec0 last _ _ _] => last
  | beats => decodeDutyChunks beats

end Sys2Proof
end

