-- ==== Sys2Proof/Machine/State.lean ====
section
/-!
DEFINITION. The state of the codec: both units, the decoder's frame flags, the open parameters, and what the host has still to
do (rules R12 to R26, R101 to R108).

The spec gives the machine the queues `EQ` and `DQ` (R17, R19) and the register `FF` (R20), and nothing else (R26). The other
fields are the model's own: `params` (R5, the spec's arguments), `live` (R102: has the unit been reset), `accepted` and
`delivered` (what crossed each interface since reset, which R36 speaks of), `cycle` (the index of the free draw of R25) and
`host` (the host's part of the interface, R10, R103).
-/

namespace Sys2Proof.Machine

/-- A beat in a unit's queue with its age: "the number of rising edges with `rst = 0` since the edge that accepted it"
(R105). -/
structure InFlight (β : Type) where
  word : β
  age  : Nat
  deriving DecidableEq, Repr

/-- The storage of one streaming unit that takes words of type `α` and gives words of type `β`. -/
structure StreamUnit (α β : Type) where
  /-- The unit has been reset since it was powered or last gated (R102 (a), R100). The model's own. -/
  live      : Bool
  /-- `EQ` or `DQ`: accepted and not yet transferred out, oldest first (R17, R19). -/
  queue     : List (InFlight β)
  /-- The input beats accepted since reset, in order (`i_1 … i_k` of R36). The model's own record. -/
  accepted  : List α
  /-- The output beats transferred since reset, in order (R36). The model's own record. -/
  delivered : List β
  /-- How many edges the unit has seen: the index of the free draw on an idle `out_beat` (R25). The model's own. -/
  cycle     : Nat
  deriving DecidableEq, Repr

/-- A unit just after reset: nothing held, nothing moved (R26). -/
def StreamUnit.empty (α β : Type) : StreamUnit α β :=
  { live := true, queue := [], accepted := [], delivered := [], cycle := 0 }

/-- The host-driven signals of one unit as sampled at one rising edge (R12, R13). -/
structure Pins (α : Type) where
  rst      : Bool
  inValid  : Bool
  inBeat   : α
  outReady : Bool
  deriving DecidableEq, Repr

/-- What the outside does next. Each unit has a clock of its own (R14), so an event belongs to one unit; a wrapper that ties
the clocks is a pair of events, in either order (log entry 5). -/
inductive HostEvent where
  /-- A rising edge of the encoder's clock. -/
  | encEdge (p : Pins Eib)
  /-- A rising edge of the decoder's clock. -/
  | decEdge (p : Pins Dib)
  /-- A rising edge at which some input of the encoder is unknown or floating (R108 (c)). -/
  | encUndriven
  /-- A rising edge at which some input of the decoder is unknown or floating (R108 (c)). -/
  | decUndriven
  /-- A rising edge at which the host drives the encoder's inputs through a combinational loop (R108 (b)). -/
  | encLoop (p : Pins Eib)
  /-- A rising edge at which the host drives the decoder's inputs through a combinational loop (R108 (b)). -/
  | decLoop (p : Pins Dib)
  /-- The encoder's clock or power is gated: it "must be reset before use" (R100). -/
  | encGate
  /-- The decoder's clock or power is gated (R100). -/
  | decGate
  deriving DecidableEq, Repr

/-- The whole state. -/
structure State where
  /-- The open parameters (R5); no step changes them. -/
  params : Params
  /-- The unit `base45_encoder`; its queue is `EQ` (R17). -/
  enc    : StreamUnit Eib Eob
  /-- The unit `base45_decoder`; its queue is `DQ` (R19). -/
  dec    : StreamUnit Dib Dob
  /-- `FF[2:0]`, the decoder's sticky frame flags (R20). -/
  ff     : FrameFlags
  /-- What the host does from now on, the next event first. -/
  host   : List HostEvent
  deriving DecidableEq, Repr

/-- Host protocol violations: "the machine-level fault of a model is kept for a host protocol violation that the model chooses
to refuse" (R88). No beat value, and no decoder error, is ever one of these (R46, R88). -/
inductive Fault where
  /-- An input of the unit was neither 0 nor 1 at a sampling edge: "outside this spec" (R108 (c), S7). Raised by `step` on
  `encUndriven` and `decUndriven`. Safe: the model stops where the spec gives no meaning. -/
  | undrivenInput (u : UnitName)
  /-- A combinational loop through the handshake of a unit of latency 0: "this spec gives it no meaning" (R108 (b), S6).
  Raised by `step` on `encLoop` and `decLoop`. Safe: as above. -/
  | handshakeLoop (u : UnitName)
  deriving DecidableEq, Repr

/-- Runs to which no meaning is given. -/
inductive Refusal where
  /-- An operation whose arm in `exec` has no meaning yet. Raised by no arm of this model. Safe. -/
  | notModelled (mnemonic : String)
  /-- The unit has not been reset since it was powered or gated: its "state is unspecified" (R102 (a), S2). Raised by `exec` and
  `step`. Safe: the model stops where the spec gives no meaning. -/
  | beforeReset (u : UnitName)
  deriving DecidableEq, Repr

/-- The state after reset for given parameters (R26): queues empty, `FF = 3'b000`, nothing offered. -/
def State.resetWith (p : Params) : State :=
  { params := p
    enc    := StreamUnit.empty Eib Eob
    dec    := StreamUnit.empty Dib Dob
    ff     := 0#3
    host   := [] }

/-- The machine right after reset (R26, R102 (d)), with the parameters of log entry 1. -/
def State.reset : State := State.resetWith Params.reference

end Sys2Proof.Machine
end

