-- ==== Sys2Proof/Machine/Ops.lean ====
section
/-!
DEFINITION. The shared operations: the handshake of a streaming unit (rules R103 to R106), taking an input beat (R9 `EMIT`,
R17, R19, R35), entering and leaving the decoder's error condition (R66, R96, R97) and reset (R101).
-/

namespace Sys2Proof.Machine

section Unit

variable {α β : Type}

/-- `out_valid` in the cycle before an edge with pins `p` (R105; R106 for latency 0). -/
def StreamUnit.outValid (lat : Nat) (p : Pins α) (u : StreamUnit α β) : Bool :=
  !p.rst &&
    if lat = 0 then p.inValid
    else match u.queue with
      | [] => false
      | b :: _ => decide (lat - 1 ≤ b.age)

/-- `in_ready` in the cycle before an edge with pins `p` (R104; R106 for latency 0). -/
def StreamUnit.inReady (lat depth : Nat) (p : Pins α) (u : StreamUnit α β) : Bool :=
  !p.rst &&
    if lat = 0 then p.outReady
    else decide (u.queue.length < depth) || (u.outValid lat p && p.outReady)

/-- `out_beat`: the pass-through word `comb` at latency 0, else the head of the queue; a free draw while `out_valid = 0`
(R25, R105, R106). -/
def StreamUnit.outBeat (lat : Nat) (comb free : β) (p : Pins α) (u : StreamUnit α β) : β :=
  if u.outValid lat p then
    if lat = 0 then comb
    else match u.queue with
      | [] => free
      | b :: _ => b.word
  else free

/-- The output transfer of an edge at latency 1 or more: the word on `out_beat` goes to the host and leaves the queue (R103,
R35). At latency 0 the input transfer is also the output transfer (R106), so nothing happens here. -/
def StreamUnit.outTransfer (lat : Nat) (comb free : β) (p : Pins α) (u : StreamUnit α β) : StreamUnit α β :=
  if lat ≠ 0 ∧ u.outValid lat p = true ∧ p.outReady = true then
    { u with queue := u.queue.tail, delivered := u.delivered ++ [u.outBeat lat comb free p] }
  else u

/-- One rising edge with `rst = 0` makes every held beat one older (R105). -/
def StreamUnit.tick (u : StreamUnit α β) : StreamUnit α β :=
  { u with queue := u.queue.map (fun b => { b with age := b.age + 1 }), cycle := u.cycle + 1 }

/-- There is a place for one more beat: the queue "holds at most `DEPTH`" beats (R17, R19), and at latency 0 the beat passes
straight through (R106). -/
def StreamUnit.hasRoom (lat depth : Nat) (u : StreamUnit α β) : Bool :=
  lat = 0 || decide (u.queue.length < depth)

/-- Take the input beat `i` whose output word is `o` (`ACCEPT` and `EMIT` of R9): queued with age 0, or handed straight to the
host at latency 0 (R35, R105, R106). -/
def StreamUnit.accept (lat : Nat) (i : α) (o : β) (u : StreamUnit α β) : StreamUnit α β :=
  if lat = 0 then { u with accepted := u.accepted ++ [i], delivered := u.delivered ++ [o] }
  else { u with accepted := u.accepted ++ [i], queue := u.queue ++ [⟨o, 0⟩] }

/-- An edge with `rst = 1`: "every beat in it is lost" (R101, R26). The index of free draws goes on. -/
def StreamUnit.reset (u : StreamUnit α β) : StreamUnit α β :=
  { StreamUnit.empty α β with cycle := u.cycle + 1 }

/-- Clock or power gating: nothing is known of the unit until it is reset (R100, R102). -/
def StreamUnit.gate (u : StreamUnit α β) : StreamUnit α β := { u with live := false }

end Unit

/-- Entering the error condition, the counterpart of taking an exception (R96): the beat's flags are ORed into the frame's; they
stick (R67). -/
def enterError (bf ff : FrameFlags) : FrameFlags := ff ||| bf

/-- Leaving it, the counterpart of a return: the beat with `last = 1` clears the flags, no other does (R21, R97). -/
def leaveError (last : Bool) (ff : FrameFlags) : FrameFlags := if last then 0#3 else ff

/-- Bytes pass only while neither this beat nor an earlier one of the frame has failed (R66). -/
def suppress (bf ff : FrameFlags) (bytes : ByteOut) : ByteOut :=
  if ff ≠ 0#3 ∨ bf ≠ 0#3 then bytesNone else bytes

/-- The tail of `DEC_BEAT` that all four decoder operations share (R67): the output word, and the new `FF`. -/
def finishBeat (last : Bool) (bf : FrameFlags) (bytes : ByteOut) (ff : FrameFlags) : Dob × FrameFlags :=
  let ffn := enterError bf ff
  let out := suppress bf ff bytes
  (packDob last out.count bf ffn (prio ffn) out.byte0 out.byte1, leaveError last ffn)

/-- An encoder input beat: taken when there is room, else left waiting on the wire with no effect (R104). -/
def acceptEnc (i : Eib) (o : Eob) (s : State) : Host.Outcome State Fault Refusal :=
  if s.enc.live = false then .refused (.beforeReset .encoder)
  else if s.enc.hasRoom s.params.latEnc s.params.depthEnc then
    .next { s with enc := s.enc.accept s.params.latEnc i o }
  else .next s

/-- A decoder input beat with its output word and the `FF` it leaves: taken when there is room, else left waiting (R104). "At
that same edge `FF` takes the returned `FF'`" (R105, R106). -/
def acceptDec (i : Dib) (r : Dob × FrameFlags) (s : State) : Host.Outcome State Fault Refusal :=
  if s.dec.live = false then .refused (.beforeReset .decoder)
  else if s.dec.hasRoom s.params.latDec s.params.depthDec then
    .next { s with dec := s.dec.accept s.params.latDec i r.1, ff := r.2 }
  else .next s

end Sys2Proof.Machine
end

