-- ==== Sys2Proof/Machine/Decoder.lean ====
section
/-!
DEFINITION. The decoder's four operations (rules R68 to R72) and its beat function (R67).

Each result is a function of the frame flags and the beat's used lanes; an ignored lane is not looked up (R47, R64).
-/

namespace Sys2Proof.Machine

/-- `DEC0` (R72): no characters, no flags, no bytes. -/
def dec0Result (last : Bool) (ff : FrameFlags) : Dob × FrameFlags :=
  finishBeat last (beatFlags []) bytesNone ff

/-- `DEC1` (R71): InvalidLength always, InvalidCharacter too when the character is invalid. -/
def dec1Result (last : Bool) (ch0 : Byte) (ff : FrameFlags) : Dob × FrameFlags :=
  finishBeat last (beatFlags [decLut ch0]) bytesNone ff

/-- `DEC2` (R69). -/
def dec2Result (last : Bool) (ch0 ch1 : Byte) (ff : FrameFlags) : Dob × FrameFlags :=
  finishBeat last (beatFlags [decLut ch0, decLut ch1]) (bytesPair (decLut ch0).v (decLut ch1).v) ff

/-- `DEC3` (R68). -/
def dec3Result (last : Bool) (ch0 ch1 ch2 : Byte) (ff : FrameFlags) : Dob × FrameFlags :=
  finishBeat last (beatFlags [decLut ch0, decLut ch1, decLut ch2])
    (bytesTriple (decLut ch0).v (decLut ch1).v (decLut ch2).v) ff

/-- `DEC_BEAT` (R67): the output word of a decoder beat and the frame flags after it. -/
def decBeat (ff : FrameFlags) (w : Dib) : Dob × FrameFlags :=
  if dibCount w = 0#2 then dec0Result (dibLast w) ff
  else if dibCount w = 1#2 then dec1Result (dibLast w) (dibCh0 w) ff
  else if dibCount w = 2#2 then dec2Result (dibLast w) (dibCh0 w) (dibCh1 w) ff
  else dec3Result (dibLast w) (dibCh0 w) (dibCh1 w) (dibCh2 w) ff

/-- `DEC0` (R72); all three lanes are ignored (R47). -/
def execDec0 (last : Bool) (x0 x1 x2 : Byte) (s : State) : Host.Outcome State Fault Refusal :=
  acceptDec (packDib last 0#2 x0 x1 x2) (dec0Result last s.ff) s

/-- `DEC1` (R71); the lanes `x1` and `x2` are ignored (R47). -/
def execDec1 (last : Bool) (ch0 x1 x2 : Byte) (s : State) : Host.Outcome State Fault Refusal :=
  acceptDec (packDib last 1#2 ch0 x1 x2) (dec1Result last ch0 s.ff) s

/-- `DEC2` (R69); the lane `x2` is ignored (R47). -/
def execDec2 (last : Bool) (ch0 ch1 x2 : Byte) (s : State) : Host.Outcome State Fault Refusal :=
  acceptDec (packDib last 2#2 ch0 ch1 x2) (dec2Result last ch0 ch1 s.ff) s

/-- `DEC3` (R68). -/
def execDec3 (last : Bool) (ch0 ch1 ch2 : Byte) (s : State) : Host.Outcome State Fault Refusal :=
  acceptDec (packDib last 3#2 ch0 ch1 ch2) (dec3Result last ch0 ch1 ch2 s.ff) s

end Sys2Proof.Machine
end

