-- ==== Sys2Proof/Machine/Encoder.lean ====
section
/-!
DEFINITION. The encoder's two operations (rules R60, R61) and its beat function (R62).
-/

namespace Sys2Proof.Machine

/-- The output word of `ENC2` (R60). -/
def enc2Word (b0 b1 : Byte) : Eob :=
  let g := divmod2025 (pairWord b0 b1)
  packEob 3#2 (encLut g.c) (encLut g.d) (encLut g.e)

/-- The output word of `ENC1` (R61). -/
def enc1Word (b0 : Byte) : Eob :=
  packEob 2#2 (encLut (byteC b0)) (encLut (byteD b0)) 0#8

/-- `ENC_BEAT` (R62): a function of the input word alone (R18). -/
def encBeat (w : Eib) : Eob :=
  if eibTwo w then enc2Word (eibB0 w) (eibB1 w) else enc1Word (eibB0 w)

/-- `ENC1` (R61); the lane `x1` is ignored (R47). -/
def execEnc1 (b0 x1 : Byte) (s : State) : Host.Outcome State Fault Refusal :=
  acceptEnc (packEib false b0 x1) (enc1Word b0) s

/-- `ENC2` (R60). -/
def execEnc2 (b0 b1 : Byte) (s : State) : Host.Outcome State Fault Refusal :=
  acceptEnc (packEib true b0 b1) (enc2Word b0 b1) s

end Sys2Proof.Machine
end

