-- ==== Sys2Proof/Machine/Dispatch.lean ====
section
/-!
DEFINITION. The dispatch: one arm per operation (rule R45).
-/

namespace Sys2Proof.Machine

def exec (i : Instr) (s : State) : Host.Outcome State Fault Refusal :=
  match i with
  | .enc1 b0 x1 => Sys2Proof.Machine.execEnc1 b0 x1 s
  | .enc2 b0 b1 => Sys2Proof.Machine.execEnc2 b0 b1 s
  | .dec0 last x0 x1 x2 => Sys2Proof.Machine.execDec0 last x0 x1 x2 s
  | .dec1 last ch0 x1 x2 => Sys2Proof.Machine.execDec1 last ch0 x1 x2 s
  | .dec2 last ch0 ch1 x2 => Sys2Proof.Machine.execDec2 last ch0 ch1 x2 s
  | .dec3 last ch0 ch1 ch2 => Sys2Proof.Machine.execDec3 last ch0 ch1 ch2 s

end Sys2Proof.Machine
end

