-- ==== Sys2Proof/Machine/Edge.lean ====
section
/-!
DEFINITION. One rising clock edge of one unit (rules R101 to R106), and the other things the outside can do to a unit (R100, R108).
-/

namespace Sys2Proof.Machine

/-- The encoder's `out_valid` (R105, R106). -/
def State.encOutValid (p : Pins Eib) (s : State) : Bool := s.enc.outValid s.params.latEnc p

/-- The encoder's `in_ready` (R104, R106). -/
def State.encInReady (p : Pins Eib) (s : State) : Bool := s.enc.inReady s.params.latEnc s.params.depthEnc p

/-- The encoder's `out_beat` (R25, R105, R106). -/
def State.encOutBeat (p : Pins Eib) (s : State) : Eob :=
  s.enc.outBeat s.params.latEnc (encBeat p.inBeat) (Config.freeEncOutBeat s.enc.cycle) p

/-- The decoder's `out_valid` (R105, R106). -/
def State.decOutValid (p : Pins Dib) (s : State) : Bool := s.dec.outValid s.params.latDec p

/-- The decoder's `in_ready` (R104, R106). -/
def State.decInReady (p : Pins Dib) (s : State) : Bool := s.dec.inReady s.params.latDec s.params.depthDec p

/-- The decoder's `out_beat` (R25, R105, R106). -/
def State.decOutBeat (p : Pins Dib) (s : State) : Dob :=
  s.dec.outBeat s.params.latDec (decBeat s.ff p.inBeat).1 (Config.freeDecOutBeat s.dec.cycle) p

/-- The encoder's side of an edge with `rst = 0` up to the input transfer: "the output transfer removes the head beat before the
input transfer's beat is added" (R103), and what stays grows older (R105). -/
def State.encDrain (p : Pins Eib) (s : State) : State :=
  { s with enc := (s.enc.outTransfer s.params.latEnc (encBeat p.inBeat) (Config.freeEncOutBeat s.enc.cycle) p).tick }

/-- The same for the decoder. -/
def State.decDrain (p : Pins Dib) (s : State) : State :=
  { s with
    dec := (s.dec.outTransfer s.params.latDec (decBeat s.ff p.inBeat).1 (Config.freeDecOutBeat s.dec.cycle) p).tick }

/-- A rising edge of the encoder's clock: reset (R101), or the transfers that `valid` and `ready` allow (R103). -/
def encEdge (p : Pins Eib) (s : State) : Host.Outcome State Fault Refusal :=
  if p.rst then .next { s with enc := s.enc.reset }
  else if s.enc.live = false then .refused (.beforeReset .encoder)
  else if p.inValid && s.encInReady p then exec (decode (.eib p.inBeat)) (s.encDrain p)
  else .next (s.encDrain p)

/-- A rising edge of the decoder's clock; reset also clears `FF` (R101). -/
def decEdge (p : Pins Dib) (s : State) : Host.Outcome State Fault Refusal :=
  if p.rst then .next { s with dec := s.dec.reset, ff := 0#3 }
  else if s.dec.live = false then .refused (.beforeReset .decoder)
  else if p.inValid && s.decInReady p then exec (decode (.dib p.inBeat)) (s.decDrain p)
  else .next (s.decDrain p)

/-- What one event of the outside does. A combinational loop has no meaning at latency 0 and is harmless above it (R108 (b)). -/
def applyEvent (ev : HostEvent) (s : State) : Host.Outcome State Fault Refusal :=
  match ev with
  | .encEdge p => encEdge p s
  | .decEdge p => decEdge p s
  | .encUndriven => .fault (.undrivenInput .encoder)
  | .decUndriven => .fault (.undrivenInput .decoder)
  | .encLoop p => if s.params.latEnc = 0 then .fault (.handshakeLoop .encoder) else encEdge p s
  | .decLoop p => if s.params.latDec = 0 then .fault (.handshakeLoop .decoder) else decEdge p s
  | .encGate => .next { s with enc := s.enc.gate }
  | .decGate => .next { s with dec := s.dec.gate }

/-- The edge at which the host offers the beat of a table word and is ready to take an output beat: up to three bytes on the
encoder, a fourth byte on the decoder. -/
def offerWord (nbits w : Nat) : HostEvent :=
  if nbits ≤ 24 then .encEdge { rst := false, inValid := true, inBeat := BitVec.ofNat 17 w, outReady := true }
  else .decEdge { rst := false, inValid := true, inBeat := BitVec.ofNat 27 w, outReady := true }

end Sys2Proof.Machine
end

