-- ==== Sys2Proof/Machine/Step.lean ====
section
/-!
DEFINITION. One step of the machine: the next thing the outside does to it (rules R16, R103).

There is no program counter and no instruction fetch (R16, R38). "The next operation is the next beat the host presents", so a
step takes the next event of the host, and an input transfer at that edge runs the operation its beat selects.
-/

namespace Sys2Proof.Machine

/-- One step. With nothing more from the host there is no clock edge, and "nothing changes the state except a transfer or
reset" (R35). -/
def step (s : State) : Host.Outcome State Fault Refusal :=
  match s.host with
  | [] => .next s
  | ev :: rest => applyEvent ev { s with host := rest }

/-- `s` with the host's next event the offer of the beat `w`. -/
def State.withFetchWord (s : State) (nbits w : Nat) : State :=
  { s with host := offerWord nbits w :: s.host }

end Sys2Proof.Machine
end

