-- ==== Sys2Proof/Machine/Message.lean ====
section
/-!
DEFINITION. Whole messages (43_sequences.md): the reference functions (rules R73, R74), the beats that stand for a message (R75,
R77), and what a run of beats gives (R36).
-/

namespace Sys2Proof.Machine

/-- The three error kinds (R90, R91, R92). -/
inductive DecodeError where
  | invalidCharacter
  | invalidLength
  | dataOverflow
  deriving DecidableEq, Repr

/-- What `decode` of a string gives: bytes, or one error. -/
inductive DecodeResult where
  | bytes (bs : List Byte)
  | error (e : DecodeError)
  deriving DecidableEq, Repr

/-- The code that reports a result (R89). -/
def DecodeResult.code : DecodeResult → ErrorCode
  | .bytes _ => codeOk
  | .error .invalidCharacter => codeIc
  | .error .invalidLength => codeIl
  | .error .dataOverflow => codeDo

/-- `encode` of a byte message (R73). -/
def refEncode : List Byte → List Byte
  | [] => []
  | [b0] => [encLut (byteC b0), encLut (byteD b0)]
  | b0 :: b1 :: rest =>
    let g := divmod2025 (pairWord b0 b1)
    encLut g.c :: encLut g.d :: encLut g.e :: refEncode rest

/-- Put `bs` before the bytes of a result; an error stays. -/
def DecodeResult.prepend (bs : List Byte) : DecodeResult → DecodeResult
  | .bytes out => .bytes (bs ++ out)
  | .error e => .error e

/-- Steps 2 and 3 of `decode`, on digits, in chunk order (R74). -/
def refChunks : List Digit → DecodeResult
  | [] => .bytes []
  | [_] => .error .invalidLength
  | [c, d] => .bytes [BitVec.ofNat 8 (pairValue c d % 256)]
  | c :: d :: e :: rest =>
    if 65535 < tripleValue c d e then .error .dataOverflow
    else (refChunks rest).prepend
      [BitVec.ofNat 8 (tripleValue c d e / 256), BitVec.ofNat 8 (tripleValue c d e % 256)]

/-- `decode` of a string of character codes (R74): step 1 on every character first. -/
def refDecode (str : List Byte) : DecodeResult :=
  if anyInvalid (str.map decLut) then .error .invalidCharacter
  else refChunks (str.map (fun ch => (decLut ch).v))

/-- `ENCODE m`: the beats the host presents for a byte message (R75). -/
def encodeBeats : List Byte → List Instr
  | [] => []
  | [b0] => [.enc1 b0 0#8]
  | b0 :: b1 :: rest => .enc2 b0 b1 :: encodeBeats rest

/-- The chunks of a string that is not empty; the last one carries `last` (R77). -/
def decodeChunkBeats : List Byte → List Instr
  | [] => []
  | [ch0] => [.dec1 true ch0 0#8 0#8]
  | [ch0, ch1] => [.dec2 true ch0 ch1 0#8]
  | ch0 :: ch1 :: ch2 :: rest => .dec3 rest.isEmpty ch0 ch1 ch2 :: decodeChunkBeats rest

/-- `DECODE s`: the frame the host presents for a string (R77). -/
def decodeBeats (str : List Byte) : List Instr :=
  if str.isEmpty then [.dec0 true 0#8 0#8 0#8] else decodeChunkBeats str

/-- The encoder words among the beats of a list of operations, in order. -/
def encWords (beats : List Instr) : List Eib :=
  beats.filterMap (fun i => match encode i with
    | .eib w => some w
    | .dib _ => none)

/-- The decoder words among the beats of a list of operations, in order. -/
def decWords (beats : List Instr) : List Dib :=
  beats.filterMap (fun i => match encode i with
    | .eib _ => none
    | .dib w => some w)

/-- The output beats of the decoder for a run of input beats, and the frame flags after them:
`(o_j, FF_j) = DEC_BEAT(FF_{j-1}, i_j)` (R36). -/
def decRun : FrameFlags → List Dib → List Dob × FrameFlags
  | ff, [] => ([], ff)
  | ff, w :: rest =>
    let r := decBeat ff w
    let t := decRun r.2 rest
    (r.1 :: t.1, t.2)

/-- The characters of an encoder output beat: the first `nchars` lanes (R75). -/
def eobChars (w : Eob) : List Byte :=
  [eobCh0 w, eobCh1 w, eobCh2 w].take (eobCount w).toNat

/-- The bytes of a decoder output beat: the first `nbytes` of `byte0`, `byte1` (R78 (a)). -/
def dobBytes (w : Dob) : List Byte :=
  [dobByte0 w, dobByte1 w].take (dobCount w).toNat

/-- The error a nonzero code names (R89). -/
def codeError (code : ErrorCode) : DecodeError :=
  if code = codeIc then .invalidCharacter else if code = codeIl then .invalidLength else .dataOverflow

/-- What the host makes of the output beats of one frame: the bytes when the last beat says `OK`, the error it names otherwise,
the bytes then discarded (R79); no result at all for a frame whose last beat never came (R80). -/
def hostDecode (outs : List Dob) : Option DecodeResult :=
  match outs.getLast? with
  | none => none
  | some o =>
    if dobLast o then
      if dobCode o = codeOk then some (.bytes (outs.flatMap dobBytes)) else some (.error (codeError (dobCode o)))
    else none

end Sys2Proof.Machine
end

