-- ==== Sys2Proof/Safety.lean ====
section
/-!
DEFINITION. What counts as a sound state and a dutiful host, in the terms the statements use.
-/

namespace Sys2Proof.Machine

/-- Each beat in the queue is older than the one behind it: one input transfer per edge (R34, R103, R105). -/
def agesFall {β : Type} (q : List (InFlight β)) : Prop := q.Pairwise (fun a b => b.age < a.age)

/-- The words a unit holds, oldest first. -/
def StreamUnit.held {α β : Type} (u : StreamUnit α β) : List β := u.queue.map (fun b => b.word)

/-- The storage bound of a unit: at most `DEPTH` beats, none at latency 0 (R17, R19). -/
structure StreamUnit.Bounded {α β : Type} (lat depth : Nat) (u : StreamUnit α β) : Prop where
  depth_bound : u.queue.length ≤ depth
  comb_empty  : lat = 0 → u.queue = []
  ages_fall   : agesFall u.queue

/-- The invariant of the machine: legal parameters (R5), the storage bounds (R17, R19), and R36 for both units, "no beat is
dropped, duplicated, reordered or merged": what was delivered and what is held are together exactly the outputs of what was
accepted, and `FF` is what the accepted beats leave. -/
structure State.Inv (s : State) : Prop where
  legal       : s.params.legal = true
  enc_bounded : s.enc.Bounded s.params.latEnc s.params.depthEnc
  dec_bounded : s.dec.Bounded s.params.latDec s.params.depthDec
  enc_stream  : s.enc.delivered ++ s.enc.held = s.enc.accepted.map encBeat
  dec_stream  : decRun 0#3 s.dec.accepted = (s.dec.delivered ++ s.dec.held, s.ff)

/-- A unit from which the host has always taken what it offered: every held beat is younger than the latency (R109). -/
def StreamUnit.Flowing {α β : Type} (lat : Nat) (u : StreamUnit α β) : Prop :=
  agesFall u.queue ∧ ∀ b ∈ u.queue, b.age < lat

/-- An edge at which the host keeps duties (b), (c) and (d) of R108 towards the unit concerned. -/
def dutiful (s : State) : HostEvent → Prop
  | .encEdge p => p.rst = true ∨ s.enc.live = true
  | .decEdge p => p.rst = true ∨ s.dec.live = true
  | .encUndriven => False
  | .decUndriven => False
  | .encLoop p => s.params.latEnc ≠ 0 ∧ (p.rst = true ∨ s.enc.live = true)
  | .decLoop p => s.params.latDec ≠ 0 ∧ (p.rst = true ∨ s.dec.live = true)
  | .encGate => True
  | .decGate => True

/-- The host keeps its duties at its next event, if it has one. -/
def safeStep (s : State) : Prop := ∀ ev ∈ s.host.head?, dutiful s ev

end Sys2Proof.Machine
end

