-- ==== Sys2Proof/Certificates/Slice0/Obligations.lean ====
section
/-!
DEFINITION. The statements for the provers, in the terms of the spec's rules. The helpers before them spell out the spec's own
words (the alphabet as a string, a beat word as a concatenation, what taking a beat leaves), so that a statement does not lean on
the definition it is about.
-/

namespace Sys2Proof.Claims

open Sys2Proof.Machine

/-- The alphabet of R51, as the spec prints it. -/
def alphabet : List Char := "0123456789ABCDEFGHIJKLMNOPQRSTUVWXYZ $%*+-./:".toList

/-- The 8-bit code of the alphabet's character at an index. -/
def charAt (v : Nat) : Byte := BitVec.ofNat 8 (alphabet.getD v '0').toNat

/-- `ch`, with the letters `8'h61` to `8'h7A` taken down by `8'h20`, as a number (R53). -/
def upper (ch : Byte) : Nat := if 0x61 ≤ ch.toNat ∧ ch.toNat ≤ 0x7A then ch.toNat - 0x20 else ch.toNat

/-- `ch` stands for the digit `v`: folded, it is the alphabet's character at `v` (R53, R54). -/
def DigitOf (ch : Byte) (v : Nat) : Prop := v < 45 ∧ (charAt v).toNat = upper ch

/-- `ch` is outside the alphabet, whatever its case (R90). -/
def Invalid (ch : Byte) : Prop := ∀ v, ¬ DigitOf ch v

/-- A decoder output word, field by field (R42). -/
def dob (last : Bool) (nbytes : BitVec 2) (bf ff : BitVec 3) (code : BitVec 2) (y0 y1 : Byte) : Dob :=
  BitVec.ofBool last ++ nbytes ++ bf ++ ff ++ code ++ y0 ++ y1

/-- `PRIO` on the bits of the flags (R94). -/
def prioOf (f : BitVec 3) : BitVec 2 :=
  if f.getLsbD 0 = true then 1#2 else if f.getLsbD 2 = true then 3#2 else if f.getLsbD 1 = true then 2#2 else 0#2

/-- What the frame flags become after a beat that leaves `f` (R21). -/
def closed (last : Bool) (f : BitVec 3) : BitVec 3 := if last then 0#3 else f

/-- The encoder has been reset and can take a beat. -/
def EncFree (s : State) : Prop :=
  s.enc.live = true ∧ (s.params.latEnc = 0 ∨ s.enc.queue.length < s.params.depthEnc)

/-- The decoder has been reset and can take a beat. -/
def DecFree (s : State) : Prop :=
  s.dec.live = true ∧ (s.params.latDec = 0 ∨ s.dec.queue.length < s.params.depthDec)

/-- The state after the encoder took the word `i` whose output is `o`: recorded, and queued with age 0 (R105) or handed out at
latency 0 (R106); everything else as it was. -/
def tookEnc (i : Eib) (o : Eob) (s : State) : State :=
  if s.params.latEnc = 0 then
    { s with enc := { s.enc with accepted := s.enc.accepted ++ [i], delivered := s.enc.delivered ++ [o] } }
  else
    { s with enc := { s.enc with accepted := s.enc.accepted ++ [i], queue := s.enc.queue ++ [⟨o, 0⟩] } }

/-- The same for the decoder, which also writes `FF`. -/
def tookDec (i : Dib) (o : Dob) (ff : BitVec 3) (s : State) : State :=
  if s.params.latDec = 0 then
    { s with
      ff := ff
      dec := { s.dec with accepted := s.dec.accepted ++ [i], delivered := s.dec.delivered ++ [o] } }
  else
    { s with
      ff := ff
      dec := { s.dec with accepted := s.dec.accepted ++ [i], queue := s.dec.queue ++ [⟨o, 0⟩] } }

/-- The head of the queue may leave in this cycle (R105, latency 1 or more). -/
def headRipe {β : Type} (lat : Nat) (q : List (InFlight β)) : Prop := ∃ b ∈ q.head?, lat - 1 ≤ b.age

/-- Every held beat one edge older. -/
def older {β : Type} (q : List (InFlight β)) : List (InFlight β) := q.map (fun b => ⟨b.word, b.age + 1⟩)

/-- The machine, from reset with parameters `p`, after `n` steps of a host that does `evs` (R102 (d)). -/
def Reached (p : Params) (evs : List HostEvent) (n : Nat) (t : State) : Prop :=
  Host.Core.run Sys2Proof.core n { State.resetWith p with host := evs } = .next t

/-- The output beats of the frame that stands for a string (R77, R78). -/
def frameOut (str : List Byte) : List Dob := (decRun 0#3 (decWords (decodeBeats str))).1

/-- The event is one of the encoder's. -/
def isEncEvent : HostEvent → Bool
  | .encEdge _ => true
  | .encUndriven => true
  | .encLoop _ => true
  | .encGate => true
  | .decEdge _ => false
  | .decUndriven => false
  | .decLoop _ => false
  | .decGate => false

end Sys2Proof.Claims

open Sys2Proof Sys2Proof.Machine Sys2Proof.Claims

/-! ### Encoding -/

/-- R45, R46: no bit of an operation is lost on the wire. -/
def Obligations.DecodeOfEncodeIsTheOperation : Prop :=
  ∀ i : Instr, decode (encode i) = i

/-- R46, R49: every beat word is the word of exactly one operation with its lanes. -/
def Obligations.EncodeOfDecodeIsTheBeat : Prop :=
  ∀ b : Beat, encode (decode b) = b

/-- R44, R45: the control fields alone select the operation, and the lanes are its operands. -/
def Obligations.ControlFieldsSelectTheOperation : Prop :=
  (∀ w : Eib, ∃ b0 b1 : Byte, b0 = (w >>> 8).setWidth 8 ∧ b1 = w.setWidth 8 ∧
    (w &&& 0x10000#17 = 0#17 → decode (.eib w) = .enc1 b0 b1) ∧
    (w &&& 0x10000#17 = 0x10000#17 → decode (.eib w) = .enc2 b0 b1)) ∧
  (∀ w : Dib, ∃ (last : Bool) (c0 c1 c2 : Byte), last = w.getLsbD 26 ∧ c0 = (w >>> 16).setWidth 8 ∧
    c1 = (w >>> 8).setWidth 8 ∧ c2 = w.setWidth 8 ∧
    (w &&& 0x3000000#27 = 0x0000000#27 → decode (.dib w) = .dec0 last c0 c1 c2) ∧
    (w &&& 0x3000000#27 = 0x1000000#27 → decode (.dib w) = .dec1 last c0 c1 c2) ∧
    (w &&& 0x3000000#27 = 0x2000000#27 → decode (.dib w) = .dec2 last c0 c1 c2) ∧
    (w &&& 0x3000000#27 = 0x3000000#27 → decode (.dib w) = .dec3 last c0 c1 c2))

/-- 95_test_vectors.md section 2, R39, R41: words the spec writes out, one of each operation. That `24` marks an encoder beat and
`32` a decoder beat is the model's choice of how a table word is numbered, log entry 3. -/
def Obligations.SpecWordsDecode : Prop :=
  decodeTableWord 24 0x14142 = some (.enc2 0x41 0x42) ∧
  decodeTableWord 24 0x041FF = some (.enc1 0x41 0xFF) ∧
  decodeTableWord 32 0x4000000 = some (.dec0 true 0 0 0) ∧
  decodeTableWord 32 0x1420000 = some (.dec1 false 0x42 0 0) ∧
  decodeTableWord 32 0x6553540 = some (.dec2 true 0x55 0x35 0x40) ∧
  decodeTableWord 32 0x7424238 = some (.dec3 true 0x42 0x42 0x38)

/-! ### The alphabet -/

/-- R51, R52: the encoder's table is the alphabet, in order, and no two digits share a character. -/
def Obligations.EncoderTableIsTheAlphabet : Prop :=
  alphabet.length = 45 ∧ (∀ v : Digit, encLut v = charAt v.val) ∧
    (∀ v w : Digit, encLut v = encLut w → v = w) ∧ charAt 36 = 0x20#8

/-- R53, R54: the decoder's table gives the digit of the folded character, and fails with digit 0 outside the alphabet. -/
def Obligations.DecoderTableFoldsCase : Prop :=
  ∀ ch : Byte, (fold ch).toNat = upper ch ∧
    (∀ v : Digit, decLut ch = ⟨true, v⟩ ↔ DigitOf ch v.val) ∧ (decLut ch = ⟨false, 0⟩ ↔ Invalid ch)

/-- R55: exactly these 185 codes are outside the alphabet, whatever the case. -/
def Obligations.InvalidCodesAreThese : Prop :=
  (∀ ch : Byte, (decLut ch).ok = false ↔
    (ch.toNat ≤ 0x1F ∨ (0x21 ≤ ch.toNat ∧ ch.toNat ≤ 0x23) ∨ (0x26 ≤ ch.toNat ∧ ch.toNat ≤ 0x29) ∨ ch.toNat = 0x2C ∨
      (0x3B ≤ ch.toNat ∧ ch.toNat ≤ 0x40) ∨ (0x5B ≤ ch.toNat ∧ ch.toNat ≤ 0x60) ∨
      (0x7B ≤ ch.toNat ∧ ch.toNat ≤ 0x7F) ∨ 0x80 ≤ ch.toNat)) ∧
  ((List.range 256).filter (fun n => !(decLut (BitVec.ofNat 8 n)).ok)).length = 185

/-- R56: the two tables are inverse on the alphabet. -/
def Obligations.TablesAreInverse : Prop :=
  (∀ v : Digit, decLut (encLut v) = ⟨true, v⟩) ∧
  (∀ (ch : Byte) (v : Digit), decLut ch = ⟨true, v⟩ → encLut v = fold ch)

/-! ### The encoder -/

/-- R57: the digits of every 16-bit value. -/
def Obligations.DividerGivesTheDigits : Prop :=
  ∀ x : BitVec 16, ∃ c d e : Digit, divmod2025 x = ⟨c, d, e⟩ ∧
    e.val = x.toNat / 2025 ∧ d.val = x.toNat % 2025 / 45 ∧ c.val = x.toNat % 2025 % 45 ∧
    e.val ≤ 32 ∧ x.toNat = c.val + 45 * d.val + 2025 * e.val

/-- R58: the encoder's digits stay in range, and the largest top digit, `W`, comes from 64800 on. -/
def Obligations.EncoderDigitsStayInRange : Prop :=
  (∀ b0 b1 : Byte, (divmod2025 (pairWord b0 b1)).e.val ≤ 32 ∧
    ((divmod2025 (pairWord b0 b1)).e.val = 32 ↔ 64800 ≤ b0.toNat * 256 + b1.toNat)) ∧
  (∀ b0 : Byte, (byteD b0).val ≤ 5) ∧
  (∀ w : Eib, ∀ ch ∈ eobChars (encBeat w), ∃ v, v < 45 ∧ ch = charAt v) ∧
  charAt 32 = 0x57#8

/-- R28, R30, R40, R60: `ENC2` takes the big-endian pair to the characters of its three digits, least significant digit first. -/
def Obligations.Enc2TakesPairToThreeCharacters : Prop :=
  ∀ (b0 b1 : Byte) (s : State), EncFree s →
    exec (.enc2 b0 b1) s =
      .next (tookEnc (1#1 ++ b0 ++ b1)
        (3#2 ++ charAt ((b0.toNat * 256 + b1.toNat) % 2025 % 45) ++ charAt ((b0.toNat * 256 + b1.toNat) % 2025 / 45) ++
          charAt ((b0.toNat * 256 + b1.toNat) / 2025)) s)

/-- R40, R48, R61: `ENC1` takes a byte to the characters of its two digits, those of the divider; its other lane goes unused. -/
def Obligations.Enc1TakesByteToTwoCharacters : Prop :=
  ∀ (b0 x1 : Byte) (s : State), EncFree s →
    exec (.enc1 b0 x1) s =
      .next (tookEnc (0#1 ++ b0 ++ x1) (2#2 ++ charAt (b0.toNat % 45) ++ charAt (b0.toNat / 45) ++ 0x00#8) s) ∧
    divmod2025 (b0.setWidth 16) = ⟨byteC b0, byteD b0, 0⟩

/-- R62: the beat function, word by word: three characters for two bytes, two for one. -/
def Obligations.EncoderBeatFunction : Prop :=
  ∀ (w : Eib) (b0 b1 : Nat), b0 = (w >>> 8).toNat % 256 → b1 = w.toNat % 256 →
    (w.getLsbD 16 = true → eobCount (encBeat w) = 3#2 ∧
      encBeat w = 3#2 ++ charAt ((b0 * 256 + b1) % 2025 % 45) ++ charAt ((b0 * 256 + b1) % 2025 / 45) ++
        charAt ((b0 * 256 + b1) / 2025)) ∧
    (w.getLsbD 16 = false → eobCount (encBeat w) = 2#2 ∧
      encBeat w = 2#2 ++ charAt (b0 % 45) ++ charAt (b0 / 45) ++ 0#8)

/-- R83: whatever the run, every character lane that a delivered encoder beat marks used holds one of the 45 codes. -/
def Obligations.EncoderOutputStaysInAlphabet : Prop :=
  ∀ (p : Params) (evs : List HostEvent) (n : Nat) (t : State), p.legal = true → Reached p evs n t →
    ∀ o ∈ t.enc.delivered, ∀ ch ∈ eobChars o, ∃ v, v < 45 ∧ ch = charAt v

/-- R62, R67, R105: what a unit puts out for a beat it takes is its beat function, for the decoder with the `FF` of that edge. -/
def Obligations.AcceptedBeatGivesItsBeatFunction : Prop :=
  (∀ (w : Eib) (s : State), EncFree s → exec (decode (.eib w)) s = .next (tookEnc w (encBeat w) s)) ∧
  (∀ (w : Dib) (s : State), DecFree s →
    exec (decode (.dib w)) s = .next (tookDec w (decBeat s.ff w).1 (decBeat s.ff w).2 s))

/-! ### The decoder -/

/-- R68: `DEC3` on each kind of input: a good triple, a good triple in a frame that has failed, an overflow, an invalid lane. -/
def Obligations.Dec3TakesTripleToTwoBytes : Prop :=
  ∀ (last : Bool) (ch0 ch1 ch2 : Byte) (s : State), DecFree s →
    (∀ c d e : Nat, DigitOf ch0 c → DigitOf ch1 d → DigitOf ch2 e →
      ((BitVec.ofNat 17 (c + d * 45 + e * 2025)).getLsbD 16 = true ↔ 65535 < c + d * 45 + e * 2025) ∧
      (c + d * 45 + e * 2025 ≤ 65535 → s.ff = 0#3 →
        exec (.dec3 last ch0 ch1 ch2) s =
          .next (tookDec (BitVec.ofBool last ++ 3#2 ++ ch0 ++ ch1 ++ ch2)
            (dob last 2#2 0#3 0#3 0#2 (BitVec.ofNat 8 ((c + d * 45 + e * 2025) / 256))
              (BitVec.ofNat 8 ((c + d * 45 + e * 2025) % 256))) 0#3 s)) ∧
      (c + d * 45 + e * 2025 ≤ 65535 → s.ff ≠ 0#3 →
        exec (.dec3 last ch0 ch1 ch2) s =
          .next (tookDec (BitVec.ofBool last ++ 3#2 ++ ch0 ++ ch1 ++ ch2)
            (dob last 0#2 0#3 s.ff (prioOf s.ff) 0#8 0#8) (closed last s.ff) s)) ∧
      (65535 < c + d * 45 + e * 2025 →
        exec (.dec3 last ch0 ch1 ch2) s =
          .next (tookDec (BitVec.ofBool last ++ 3#2 ++ ch0 ++ ch1 ++ ch2)
            (dob last 0#2 0b100#3 (s.ff ||| 0b100#3) (prioOf (s.ff ||| 0b100#3)) 0#8 0#8)
            (closed last (s.ff ||| 0b100#3)) s))) ∧
    (Invalid ch0 ∨ Invalid ch1 ∨ Invalid ch2 →
      exec (.dec3 last ch0 ch1 ch2) s =
        .next (tookDec (BitVec.ofBool last ++ 3#2 ++ ch0 ++ ch1 ++ ch2)
          (dob last 0#2 0b001#3 (s.ff ||| 0b001#3) 1#2 0#8 0#8) (closed last (s.ff ||| 0b001#3)) s))

/-- R69, R70: `DEC2` on each kind of input; a pair is never too large. -/
def Obligations.Dec2TakesPairToOneByte : Prop :=
  ∀ (last : Bool) (ch0 ch1 x2 : Byte) (s : State), DecFree s →
    (∀ c d : Nat, DigitOf ch0 c → DigitOf ch1 d →
      (s.ff = 0#3 →
        exec (.dec2 last ch0 ch1 x2) s =
          .next (tookDec (BitVec.ofBool last ++ 2#2 ++ ch0 ++ ch1 ++ x2)
            (dob last 1#2 0#3 0#3 0#2 (BitVec.ofNat 8 ((c + d * 45) % 256)) 0#8) 0#3 s)) ∧
      (s.ff ≠ 0#3 →
        exec (.dec2 last ch0 ch1 x2) s =
          .next (tookDec (BitVec.ofBool last ++ 2#2 ++ ch0 ++ ch1 ++ x2)
            (dob last 0#2 0#3 s.ff (prioOf s.ff) 0#8 0#8) (closed last s.ff) s))) ∧
    (Invalid ch0 ∨ Invalid ch1 →
      exec (.dec2 last ch0 ch1 x2) s =
        .next (tookDec (BitVec.ofBool last ++ 2#2 ++ ch0 ++ ch1 ++ x2)
          (dob last 0#2 0b001#3 (s.ff ||| 0b001#3) 1#2 0#8 0#8) (closed last (s.ff ||| 0b001#3)) s))

/-- R71: `DEC1` always reports InvalidLength, and InvalidCharacter too when its character is invalid. -/
def Obligations.Dec1ReportsInvalidLength : Prop :=
  ∀ (last : Bool) (ch0 x1 x2 : Byte) (s : State), DecFree s →
    (∀ c : Nat, DigitOf ch0 c →
      exec (.dec1 last ch0 x1 x2) s =
        .next (tookDec (BitVec.ofBool last ++ 1#2 ++ ch0 ++ x1 ++ x2)
          (dob last 0#2 0b010#3 (s.ff ||| 0b010#3) (prioOf (s.ff ||| 0b010#3)) 0#8 0#8)
          (closed last (s.ff ||| 0b010#3)) s)) ∧
    (Invalid ch0 →
      exec (.dec1 last ch0 x1 x2) s =
        .next (tookDec (BitVec.ofBool last ++ 1#2 ++ ch0 ++ x1 ++ x2)
          (dob last 0#2 0b011#3 (s.ff ||| 0b011#3) 1#2 0#8 0#8) (closed last (s.ff ||| 0b011#3)) s))

/-- R72: `DEC0` adds no bytes and no flags, repeats the frame's flags, and closes the frame when it is the last beat. -/
def Obligations.Dec0RepeatsTheFrameStatus : Prop :=
  ∀ (last : Bool) (x0 x1 x2 : Byte) (s : State), DecFree s →
    exec (.dec0 last x0 x1 x2) s =
      .next (tookDec (BitVec.ofBool last ++ 0#2 ++ x0 ++ x1 ++ x2)
        (dob last 0#2 0#3 s.ff (prioOf s.ff) 0#8 0#8) (closed last s.ff) s)

/-- R65: the beat flags, each from its own condition on the used lanes. -/
def Obligations.BeatFlagsNameTheErrors : Prop :=
  ∀ (ff : FrameFlags) (w : Dib) (bf : FrameFlags) (used : List Byte),
    bf = dobBeatFlags (decBeat ff w).1 → used = [dibCh0 w, dibCh1 w, dibCh2 w].take (dibCount w).toNat →
      (bf.getLsbD 0 = true ↔ ∃ ch ∈ used, Invalid ch) ∧
      (bf.getLsbD 1 = true ↔ dibCount w = 1#2) ∧
      (bf.getLsbD 2 = true ↔ dibCount w = 3#2 ∧ ∃ c d e : Nat,
        DigitOf (dibCh0 w) c ∧ DigitOf (dibCh1 w) d ∧ DigitOf (dibCh2 w) e ∧ 65535 < c + 45 * d + 2025 * e)

/-- R67: what every decoder output beat says of its frame, and what `FF` becomes. -/
def Obligations.OutputBeatReportsTheFrame : Prop :=
  ∀ (ff : FrameFlags) (w : Dib) (bf : FrameFlags), bf = dobBeatFlags (decBeat ff w).1 →
    dobLast (decBeat ff w).1 = dibLast w ∧
    dobFrameFlags (decBeat ff w).1 = ff ||| bf ∧
    dobCode (decBeat ff w).1 = prioOf (ff ||| bf) ∧
    (decBeat ff w).2 = closed (dibLast w) (ff ||| bf)

/-- R66: from the first failing beat of a frame to its end no byte leaves the decoder. -/
def Obligations.FailedFrameGivesNoMoreBytes : Prop :=
  ∀ (ff : FrameFlags) (w : Dib) (rest : List Dib),
    (∀ v ∈ (w :: rest).dropLast, dibLast v = false) → dobBeatFlags (decBeat ff w).1 ≠ 0#3 ∨ ff ≠ 0#3 →
      ∀ o ∈ (decRun ff (w :: rest)).1, dobCount o = 0#2 ∧ dobByte0 o = 0#8 ∧ dobByte1 o = 0#8

/-- R94: InvalidCharacter ranks first, then DataOverflow, then InvalidLength. -/
def Obligations.FrameCodeFollowsPrecedence : Prop :=
  ∀ (ff : FrameFlags) (w : Dib) (f : FrameFlags), f = dobFrameFlags (decBeat ff w).1 →
    (f.getLsbD 0 = true → dobCode (decBeat ff w).1 = 1#2) ∧
    (f.getLsbD 0 = false → f.getLsbD 2 = true → dobCode (decBeat ff w).1 = 3#2) ∧
    (f.getLsbD 0 = false → f.getLsbD 2 = false → f.getLsbD 1 = true → dobCode (decBeat ff w).1 = 2#2) ∧
    (f = 0#3 → dobCode (decBeat ff w).1 = 0#2)

/-! ### Lanes -/

/-- R47: an unused input lane has no effect on any output field or on `FF`. -/
def Obligations.UnusedInputLanesAreIgnored : Prop :=
  (∀ v w : Eib, eibTwo v = false → eibTwo w = false → eibB0 v = eibB0 w → encBeat v = encBeat w) ∧
  (∀ (ff : FrameFlags) (v w : Dib), dibLast v = dibLast w → dibCount v = dibCount w →
    (1 ≤ (dibCount v).toNat → dibCh0 v = dibCh0 w) → (2 ≤ (dibCount v).toNat → dibCh1 v = dibCh1 w) →
    (3 ≤ (dibCount v).toNat → dibCh2 v = dibCh2 w) → decBeat ff v = decBeat ff w)

/-- R40, R42, R48: unused output lanes are zero, and the count values that are never produced are not. -/
def Obligations.UnusedOutputLanesAreZero : Prop :=
  (∀ w : Eib, (eobCount (encBeat w) = 2#2 ∨ eobCount (encBeat w) = 3#2) ∧
    (eobCount (encBeat w) = 2#2 → eobCh2 (encBeat w) = 0#8)) ∧
  (∀ (ff : FrameFlags) (w : Dib), dobCount (decBeat ff w).1 ≠ 3#2 ∧
    (dobCount (decBeat ff w).1 = 0#2 → dobByte0 (decBeat ff w).1 = 0#8) ∧
    (dobCount (decBeat ff w).1 ≠ 2#2 → dobByte1 (decBeat ff w).1 = 0#8))

/-! ### Messages -/

/-- R73, R75, R76: the characters of the beats of a message are its `encode`. -/
def Obligations.EncoderBeatsComputeEncode : Prop :=
  ∀ m : List Byte, (encWords (encodeBeats m)).flatMap (fun w => eobChars (encBeat w)) = refEncode m

/-- R74, R77, R78, R79: the frame of a string reports what `decode` returns, its bytes when it succeeds, and every kind of error
found; a host that keeps duty R79 gets exactly `decode`. -/
def Obligations.DecoderFrameComputesDecode : Prop :=
  ∀ str : List Byte,
    (frameOut str).getLast?.map dobCode = some (refDecode str).code ∧
    (∀ bs, refDecode str = .bytes bs → (frameOut str).flatMap dobBytes = bs) ∧
    (frameOut str).getLast?.map dobFrameFlags =
      some (((frameOut str).map dobBeatFlags).foldl (fun f g => f ||| g) 0#3) ∧
    (decRun 0#3 (decWords (decodeBeats str))).2 = 0#3 ∧
    hostDecode (frameOut str) = some (refDecode str)

/-- R81: decoding what was encoded gives back the message. -/
def Obligations.DecodeOfEncodeIsTheMessage : Prop :=
  ∀ m : List Byte, refDecode (refEncode m) = .bytes m

/-- R81, beat by beat: an encoder output word with `last` put above it decodes to the bytes of its group. -/
def Obligations.EncoderOutputFeedsDecoder : Prop :=
  ∀ (last : Bool) (w : Eib),
    (w.getLsbD 16 = true → decBeat 0#3 (BitVec.ofBool last ++ encBeat w) =
      (dob last 2#2 0#3 0#3 0#2 (eibB0 w) (eibB1 w), 0#3)) ∧
    (w.getLsbD 16 = false → decBeat 0#3 (BitVec.ofBool last ++ encBeat w) =
      (dob last 1#2 0#3 0#3 0#2 (eibB0 w) 0#8, 0#3))

/-- R82: the length of an encoded message, by both of the document's formulas, and the beats it comes in. -/
def Obligations.EncodedLengthLaw : Prop :=
  ∀ m : List Byte,
    (refEncode m).length = 3 * (m.length / 2) + 2 * (m.length % 2) ∧
    (refEncode m).length + m.length % 2 = (m.length + 1) / 2 * 3 ∧
    (encWords (encodeBeats m)).map (fun w => eobCount (encBeat w)) =
      List.replicate (m.length / 2) 3#2 ++ List.replicate (m.length % 2) 2#2

/-- R84: letter case never matters, valid string or not. -/
def Obligations.DecodingIgnoresCase : Prop :=
  ∀ str : List Byte,
    refDecode (str.map fold) = refDecode str ∧ frameOut (str.map fold) = frameOut str

/-- R85: the empty message and the empty string. -/
def Obligations.EmptyInputGivesEmptyOutput : Prop :=
  encodeBeats [] = [] ∧ refEncode [] = [] ∧ refDecode [] = .bytes [] ∧
    decodeBeats [] = [.dec0 true 0 0 0] ∧ frameOut [] = [dob true 0#2 0#3 0#3 0#2 0#8 0#8]

/-- R86: re-encoding what a string decodes to gives the string back, in upper case, exactly when its trailing pair, if it has
one, is at most 255. -/
def Obligations.CanonicalStringsReencode : Prop :=
  ∀ (str bs : List Byte), refDecode str = .bytes bs →
    (refEncode bs = str.map fold ↔
      ∀ (front : List Byte) (ch0 ch1 : Byte) (c d : Nat), str = front ++ [ch0, ch1] → front.length % 3 = 0 →
        DigitOf ch0 c → DigitOf ch1 d → c + 45 * d ≤ 255)

/-- R75, R77: the beats of a message keep the host's duty, and any beats that keep it, written as R50 writes them, are the beats
of some message. -/
def Obligations.DutifulBeatsAreMessages : Prop :=
  ∀ beats : List Instr, (∀ i ∈ beats, i.written = true) →
    ((encodeDuty beats = true ↔ ∃ m, beats = encodeBeats m) ∧
      (decodeDuty beats = true ↔ ∃ str, beats = decodeBeats str))

/-- R80, R96, R97: two frames one after the other: the second decodes as if it came alone. -/
def Obligations.FramesDoNotInterfere : Prop :=
  ∀ (ff : FrameFlags) (ws : List Dib) (w : Dib) (later : List Dib), dibLast w = true →
    (decRun ff (ws ++ w :: later)).1 = (decRun ff (ws ++ [w])).1 ++ (decRun 0#3 later).1

/-! ### The machine -/

/-- R16, R103, R105: an edge that takes a beat is the operation of its word, run after the output transfer of that edge. -/
def Obligations.StepRunsTheOfferedBeat : Prop :=
  (∀ (s : State) (p : Pins Eib) (rest : List HostEvent), s.host = .encEdge p :: rest → p.rst = false →
    s.enc.live = true → p.inValid = true → s.encInReady p = true →
      step s = exec (decode (.eib p.inBeat)) (({ s with host := rest } : State).encDrain p)) ∧
  (∀ (s : State) (p : Pins Dib) (rest : List HostEvent), s.host = .decEdge p :: rest → p.rst = false →
    s.dec.live = true → p.inValid = true → s.decInReady p = true →
      step s = exec (decode (.dib p.inBeat)) (({ s with host := rest } : State).decDrain p))

/-- Log entry 3 (the model's choice of how a table word is offered): a fetched word runs exactly the operation it decodes to. -/
def Obligations.FetchedWordRunsItsOperation : Prop :=
  ∀ (s : State) (nbits w : Nat) (i : Instr), decodeTableWord nbits w = some i →
    (∀ v, encode i = .eib v → s.enc.live = true → s.encInReady ⟨false, true, v, true⟩ = true →
      step (s.withFetchWord nbits w) = exec i (s.encDrain ⟨false, true, v, true⟩)) ∧
    (∀ v, encode i = .dib v → s.dec.live = true → s.decInReady ⟨false, true, v, true⟩ = true →
      step (s.withFetchWord nbits w) = exec i (s.decDrain ⟨false, true, v, true⟩))

/-- R26: what reset leaves, for every choice of the parameters, and what the ports show then. -/
def Obligations.ResetLeavesEmptyUnits : Prop :=
  ∀ p : Params, p.legal = true → ∃ s, s = State.resetWith p ∧
    s.enc.queue = [] ∧ s.dec.queue = [] ∧ s.ff = 0#3 ∧ s.params = p ∧
    (∀ pins : Pins Eib, pins.rst = false →
      (0 < p.depthEnc → s.encInReady pins = true ∧ s.encOutValid pins = false) ∧
      (p.latEnc = 0 → s.encInReady pins = pins.outReady ∧ s.encOutValid pins = pins.inValid)) ∧
    (∀ pins : Pins Dib, pins.rst = false →
      (0 < p.depthDec → s.decInReady pins = true ∧ s.decOutValid pins = false) ∧
      (p.latDec = 0 → s.decInReady pins = pins.outReady ∧ s.decOutValid pins = pins.inValid))

/-- R101: an edge with `rst = 1` empties the unit and clears `FF`, moves no beat, and leaves the other unit alone; the unit drives
`in_ready = 0` and `out_valid = 0`. -/
def Obligations.ResetEdgeEmptiesTheUnit : Prop :=
  (∀ (s : State) (p : Pins Eib) (rest : List HostEvent), s.host = .encEdge p :: rest → p.rst = true →
    s.encInReady p = false ∧ s.encOutValid p = false ∧
    ∃ t, step s = .next t ∧ t.enc.queue = [] ∧ t.enc.accepted = [] ∧ t.enc.delivered = [] ∧ t.enc.live = true ∧
      t.dec = s.dec ∧ t.ff = s.ff ∧ t.params = s.params) ∧
  (∀ (s : State) (p : Pins Dib) (rest : List HostEvent), s.host = .decEdge p :: rest → p.rst = true →
    s.decInReady p = false ∧ s.decOutValid p = false ∧
    ∃ t, step s = .next t ∧ t.dec.queue = [] ∧ t.dec.accepted = [] ∧ t.dec.delivered = [] ∧ t.dec.live = true ∧
      t.ff = 0#3 ∧ t.enc = s.enc ∧ t.params = s.params)

/-- R100, R102: a gated unit gives no meaning to an edge until it is reset; after one reset edge it takes a beat. -/
def Obligations.GatedUnitMustBeReset : Prop :=
  (∀ (s : State) (p : Pins Eib) (rest : List HostEvent), s.host = .encGate :: .encEdge p :: rest →
    (p.rst = false → Host.Core.run Sys2Proof.core 2 s = .refused (.beforeReset .encoder)) ∧
    (p.rst = true → ∃ t, Host.Core.run Sys2Proof.core 2 s = .next t ∧ t.enc.live = true ∧ t.enc.queue = [])) ∧
  (∀ (s : State) (p : Pins Dib) (rest : List HostEvent), s.host = .decGate :: .decEdge p :: rest →
    (p.rst = false → Host.Core.run Sys2Proof.core 2 s = .refused (.beforeReset .decoder)) ∧
    (p.rst = true → ∃ t, Host.Core.run Sys2Proof.core 2 s = .next t ∧ t.dec.live = true ∧ t.dec.queue = [] ∧
      t.ff = 0#3))

/-- R104, R105: the port equations of a unit of latency 1 or more; `out_beat` is the head of the queue when it is valid. -/
def Obligations.PortsFollowTheirEquations : Prop :=
  (∀ (s : State) (p : Pins Eib), s.enc.live = true → s.params.latEnc ≠ 0 →
    (s.encOutValid p = true ↔ p.rst = false ∧ headRipe s.params.latEnc s.enc.queue) ∧
    (s.encInReady p = true ↔ p.rst = false ∧
      (s.enc.queue.length < s.params.depthEnc ∨ (s.encOutValid p = true ∧ p.outReady = true))) ∧
    (s.encOutValid p = true → s.enc.held.head? = some (s.encOutBeat p))) ∧
  (∀ (s : State) (p : Pins Dib), s.dec.live = true → s.params.latDec ≠ 0 →
    (s.decOutValid p = true ↔ p.rst = false ∧ headRipe s.params.latDec s.dec.queue) ∧
    (s.decInReady p = true ↔ p.rst = false ∧
      (s.dec.queue.length < s.params.depthDec ∨ (s.decOutValid p = true ∧ p.outReady = true))) ∧
    (s.decOutValid p = true → s.dec.held.head? = some (s.decOutBeat p)))

/-- R103, R104, R105: everything an edge does to the encoder at latency 1 or more. -/
def Obligations.EncoderEdgeFollowsTheHandshake : Prop :=
  ∀ (s : State) (p : Pins Eib) (rest : List HostEvent), s.Inv → s.host = .encEdge p :: rest → p.rst = false →
    s.enc.live = true → s.params.latEnc ≠ 0 → ∃ t, step s = .next t ∧
      (headRipe s.params.latEnc s.enc.queue ∧ p.outReady = true →
        t.enc.delivered = s.enc.delivered ++ s.enc.held.take 1 ∧
        (p.inValid = true → t.enc.accepted = s.enc.accepted ++ [p.inBeat] ∧
          t.enc.queue = older s.enc.queue.tail ++ [⟨encBeat p.inBeat, 0⟩]) ∧
        (p.inValid = false → t.enc.accepted = s.enc.accepted ∧ t.enc.queue = older s.enc.queue.tail)) ∧
      (¬ (headRipe s.params.latEnc s.enc.queue ∧ p.outReady = true) →
        t.enc.delivered = s.enc.delivered ∧
        (p.inValid = true → s.enc.queue.length < s.params.depthEnc →
          t.enc.accepted = s.enc.accepted ++ [p.inBeat] ∧
          t.enc.queue = older s.enc.queue ++ [⟨encBeat p.inBeat, 0⟩]) ∧
        (p.inValid = false ∨ s.enc.queue.length = s.params.depthEnc →
          t.enc.accepted = s.enc.accepted ∧ t.enc.queue = older s.enc.queue)) ∧
      t.dec = s.dec ∧ t.ff = s.ff ∧ t.params = s.params ∧ t.host = rest

/-- R103, R104, R105: everything an edge does to the decoder at latency 1 or more; `FF` changes with the beat taken. -/
def Obligations.DecoderEdgeFollowsTheHandshake : Prop :=
  ∀ (s : State) (p : Pins Dib) (rest : List HostEvent), s.Inv → s.host = .decEdge p :: rest → p.rst = false →
    s.dec.live = true → s.params.latDec ≠ 0 → ∃ t, step s = .next t ∧
      (headRipe s.params.latDec s.dec.queue ∧ p.outReady = true →
        t.dec.delivered = s.dec.delivered ++ s.dec.held.take 1 ∧
        (p.inValid = true → t.dec.accepted = s.dec.accepted ++ [p.inBeat] ∧ t.ff = (decBeat s.ff p.inBeat).2 ∧
          t.dec.queue = older s.dec.queue.tail ++ [⟨(decBeat s.ff p.inBeat).1, 0⟩]) ∧
        (p.inValid = false → t.dec.accepted = s.dec.accepted ∧ t.ff = s.ff ∧ t.dec.queue = older s.dec.queue.tail)) ∧
      (¬ (headRipe s.params.latDec s.dec.queue ∧ p.outReady = true) →
        t.dec.delivered = s.dec.delivered ∧
        (p.inValid = true → s.dec.queue.length < s.params.depthDec →
          t.dec.accepted = s.dec.accepted ++ [p.inBeat] ∧ t.ff = (decBeat s.ff p.inBeat).2 ∧
          t.dec.queue = older s.dec.queue ++ [⟨(decBeat s.ff p.inBeat).1, 0⟩]) ∧
        (p.inValid = false ∨ s.dec.queue.length = s.params.depthDec →
          t.dec.accepted = s.dec.accepted ∧ t.ff = s.ff ∧ t.dec.queue = older s.dec.queue)) ∧
      t.enc = s.enc ∧ t.params = s.params ∧ t.host = rest

/-- R106: at latency 0 the input transfer and the output transfer are the same edge, for both units. -/
def Obligations.CombinationalUnitPassesStraightThrough : Prop :=
  (∀ (s : State) (p : Pins Eib) (rest : List HostEvent), s.host = .encEdge p :: rest → p.rst = false →
    s.enc.live = true → s.params.latEnc = 0 →
      (∀ q : Pins Eib, s.encOutValid q = (!q.rst && q.inValid) ∧ s.encInReady q = (!q.rst && q.outReady)) ∧
      (p.inValid = true → s.encOutBeat p = encBeat p.inBeat) ∧
      ∃ t, step s = .next t ∧ t.dec = s.dec ∧ t.ff = s.ff ∧ t.enc.held = s.enc.held ∧
        (p.inValid = true ∧ p.outReady = true → t.enc.accepted = s.enc.accepted ++ [p.inBeat] ∧
          t.enc.delivered = s.enc.delivered ++ [encBeat p.inBeat]) ∧
        (¬ (p.inValid = true ∧ p.outReady = true) → t.enc.accepted = s.enc.accepted ∧
          t.enc.delivered = s.enc.delivered)) ∧
  (∀ (s : State) (p : Pins Dib) (rest : List HostEvent), s.host = .decEdge p :: rest → p.rst = false →
    s.dec.live = true → s.params.latDec = 0 →
      (∀ q : Pins Dib, s.decOutValid q = (!q.rst && q.inValid) ∧ s.decInReady q = (!q.rst && q.outReady)) ∧
      (p.inValid = true → s.decOutBeat p = (decBeat s.ff p.inBeat).1) ∧
      ∃ t, step s = .next t ∧ t.enc = s.enc ∧ t.dec.held = s.dec.held ∧
        (p.inValid = true ∧ p.outReady = true → t.dec.accepted = s.dec.accepted ++ [p.inBeat] ∧
          t.dec.delivered = s.dec.delivered ++ [(decBeat s.ff p.inBeat).1] ∧ t.ff = (decBeat s.ff p.inBeat).2) ∧
        (¬ (p.inValid = true ∧ p.outReady = true) → t.dec.accepted = s.dec.accepted ∧
          t.dec.delivered = s.dec.delivered ∧ t.ff = s.ff))

/-- R105: an offered output beat stays offered, the same word, until the host takes it; only reset interrupts this. -/
def Obligations.OfferedOutputBeatHolds : Prop :=
  (∀ (s t : State) (p p' : Pins Eib) (rest : List HostEvent), s.host = .encEdge p :: rest → s.params.latEnc ≠ 0 →
    s.encOutValid p = true → p.outReady = false → step s = .next t → p'.rst = false →
      t.encOutValid p' = true ∧ t.encOutBeat p' = s.encOutBeat p) ∧
  (∀ (s t : State) (p p' : Pins Dib) (rest : List HostEvent), s.host = .decEdge p :: rest → s.params.latDec ≠ 0 →
    s.decOutValid p = true → p.outReady = false → step s = .next t → p'.rst = false →
      t.decOutValid p' = true ∧ t.decOutBeat p' = s.decOutBeat p)

/-- R35: an edge at which no beat crosses either interface of a unit, and no reset, moves nothing. -/
def Obligations.NoTransferMovesNothing : Prop :=
  (∀ (s t : State) (p : Pins Eib) (rest : List HostEvent), s.host = .encEdge p :: rest → p.rst = false →
    (p.inValid && s.encInReady p) = false → (s.encOutValid p && p.outReady) = false → step s = .next t →
      t.enc.held = s.enc.held ∧ t.enc.accepted = s.enc.accepted ∧ t.enc.delivered = s.enc.delivered ∧
        t.enc.live = s.enc.live ∧ t.dec = s.dec ∧ t.ff = s.ff) ∧
  (∀ (s t : State) (p : Pins Dib) (rest : List HostEvent), s.host = .decEdge p :: rest → p.rst = false →
    (p.inValid && s.decInReady p) = false → (s.decOutValid p && p.outReady) = false → step s = .next t →
      t.dec.held = s.dec.held ∧ t.dec.accepted = s.dec.accepted ∧ t.dec.delivered = s.dec.delivered ∧
        t.dec.live = s.dec.live ∧ t.ff = s.ff ∧ t.enc = s.enc)

/-- R17, R19, R104: a full unit leaves an offered beat waiting, with none of its effect. -/
def Obligations.FullUnitLeavesTheBeatWaiting : Prop :=
  ∀ (i : Instr) (s : State),
    (∀ w, encode i = .eib w → s.enc.live = true → s.params.latEnc ≠ 0 → s.params.depthEnc ≤ s.enc.queue.length →
      exec i s = .next s) ∧
    (∀ w, encode i = .dib w → s.dec.live = true → s.params.latDec ≠ 0 → s.params.depthDec ≤ s.dec.queue.length →
      exec i s = .next s)

/-- R46, R63, R88, R99: no beat and no error stops a unit. That a broken host duty of R108 stops the step is the model's choice:
log entry 9 for duties (b) and (c), log entry 8 for duty (d), the reset before first use of R102. -/
def Obligations.OnlyHostViolationsStopAStep : Prop :=
  ∀ s : State, (∃ t, step s = .next t) ↔ safeStep s

/-- An unknown input, and a combinational loop at latency 0, are host violations that the spec gives no meaning (R108 (b), (c),
S6, S7). That they fault, under these names, and that a loop above latency 0 is an edge like any other, is the model's choice,
log entry 9. -/
def Obligations.HostViolationsFaultByName : Prop :=
  (∀ (s : State) (rest : List HostEvent), s.host = .encUndriven :: rest → step s = .fault (.undrivenInput .encoder)) ∧
  (∀ (s : State) (rest : List HostEvent), s.host = .decUndriven :: rest → step s = .fault (.undrivenInput .decoder)) ∧
  (∀ (s : State) (p : Pins Eib) (rest : List HostEvent), s.host = .encLoop p :: rest →
    (s.params.latEnc = 0 → step s = .fault (.handshakeLoop .encoder)) ∧
    (s.params.latEnc ≠ 0 → step s = step { s with host := .encEdge p :: rest })) ∧
  (∀ (s : State) (p : Pins Dib) (rest : List HostEvent), s.host = .decLoop p :: rest →
    (s.params.latDec = 0 → step s = .fault (.handshakeLoop .decoder)) ∧
    (s.params.latDec ≠ 0 → step s = step { s with host := .decEdge p :: rest }))

/-- R5, R16: a step uses up one event of the host and never changes the parameters; with no event there is no edge. -/
def Obligations.StepUsesOneEvent : Prop :=
  ∀ s : State, (s.host = [] → step s = .next s) ∧
    ∀ t, step s = .next t → t.params = s.params ∧ t.host = s.host.tail

/-- R14: an event of one unit is blind to the other unit, and leaves it as it was; events of the two commute. -/
def Obligations.UnitsAreIndependent : Prop :=
  (∀ (s s' t : State) (ev : HostEvent) (rest rest' : List HostEvent), s.host = ev :: rest → s'.host = ev :: rest' →
    s.params = s'.params → step s = .next t →
      (isEncEvent ev = true → s.enc = s'.enc → t.dec = s.dec ∧ t.ff = s.ff ∧ ∃ t', step s' = .next t' ∧ t'.enc = t.enc) ∧
      (isEncEvent ev = false → s.dec = s'.dec → s.ff = s'.ff →
        t.enc = s.enc ∧ ∃ t', step s' = .next t' ∧ t'.dec = t.dec ∧ t'.ff = t.ff)) ∧
  (∀ (s t : State) (ee ed : HostEvent) (rest : List HostEvent), isEncEvent ee = true → isEncEvent ed = false →
    Host.Core.run Sys2Proof.core 2 { s with host := ee :: ed :: rest } = .next t →
      Host.Core.run Sys2Proof.core 2 { s with host := ed :: ee :: rest } = .next t)

/-- R20, R97: `FF` changes only by the update of an accepted decoder beat, or by reset. -/
def Obligations.FrameFlagsChangeOnlyByBeatOrReset : Prop :=
  ∀ s t : State, step s = .next t → t.ff ≠ s.ff →
    ∃ p : Pins Dib, (s.host.head? = some (.decEdge p) ∨ s.host.head? = some (.decLoop p)) ∧
      ((p.rst = true ∧ t.ff = 0#3) ∨
        (p.rst = false ∧ p.inValid = true ∧ s.decInReady p = true ∧ t.ff = (decBeat s.ff p.inBeat).2 ∧
          t.dec.accepted = s.dec.accepted ++ [p.inBeat]))

/-- R5, R17, R19, R36: the invariant holds after reset, for every legal choice of the parameters. -/
def Obligations.InvariantHoldsAfterReset : Prop :=
  ∀ p : Params, p.legal = true → (State.resetWith p).Inv

/-- R5, R17, R19, R36: every step keeps the invariant, from every state that has it, whatever the outside does. -/
def Obligations.StepKeepsTheInvariant : Prop :=
  ∀ s t : State, s.Inv → step s = .next t → t.Inv

/-- R36, its prefix sentence: since reset, what each unit has transferred out is a prefix of the outputs of what it accepted,
whatever the outside does and for every choice of the parameters. (That none is dropped is the invariant's `enc_stream` and
`dec_stream`, which StepKeepsTheInvariant keeps.) -/
def Obligations.RunDeliversAcceptedBeatsInOrder : Prop :=
  ∀ (p : Params) (evs : List HostEvent) (n : Nat) (t : State), p.legal = true → Reached p evs n t →
    t.enc.delivered <+: t.enc.accepted.map encBeat ∧ t.dec.delivered <+: (decRun 0#3 t.dec.accepted).1

/-- R11, R76: whatever the timing, once the beats of a message have been accepted since reset and taken, the characters the host
has are its `encode`. -/
def Obligations.EncodedMessageArrives : Prop :=
  ∀ (p : Params) (evs : List HostEvent) (n : Nat) (t : State) (m : List Byte), p.legal = true → Reached p evs n t →
    t.enc.accepted = encWords (encodeBeats m) → t.enc.queue = [] → t.enc.delivered.flatMap eobChars = refEncode m

/-- R11, R78: whatever the timing, once the frame of a string has been accepted since reset and taken, the last beat the host has
reports what `decode` returns, and the bytes are its bytes when it succeeds. -/
def Obligations.DecodedMessageArrives : Prop :=
  ∀ (p : Params) (evs : List HostEvent) (n : Nat) (t : State) (str : List Byte), p.legal = true → Reached p evs n t →
    t.dec.accepted = decWords (decodeBeats str) → t.dec.queue = [] →
      t.dec.delivered.getLast?.map dobCode = some (refDecode str).code ∧ t.ff = 0#3 ∧
      (∀ bs, refDecode str = .bytes bs → t.dec.delivered.flatMap dobBytes = bs) ∧
      hostDecode t.dec.delivered = some (refDecode str)

/-- R109, R110: while the host takes output, a unit of latency 1 or more is ready in every cycle, and each held beat leaves at the
edge `LAT` edges after the one that accepted it. -/
def Obligations.FlowingUnitNeverStalls : Prop :=
  (∀ (s : State) (p : Pins Eib) (rest : List HostEvent), s.params.legal = true → s.params.latEnc ≠ 0 →
    s.enc.Flowing s.params.latEnc → s.enc.live = true → s.host = .encEdge p :: rest → p.rst = false →
    p.outReady = true →
      s.encInReady p = true ∧ ∃ t, step s = .next t ∧ t.enc.Flowing s.params.latEnc ∧
        t.enc.delivered = s.enc.delivered ++
          (s.enc.queue.filter (fun b => b.age + 1 = s.params.latEnc)).map (fun b => b.word)) ∧
  (∀ (s : State) (p : Pins Dib) (rest : List HostEvent), s.params.legal = true → s.params.latDec ≠ 0 →
    s.dec.Flowing s.params.latDec → s.dec.live = true → s.host = .decEdge p :: rest → p.rst = false →
    p.outReady = true →
      s.decInReady p = true ∧ ∃ t, step s = .next t ∧ t.dec.Flowing s.params.latDec ∧
        t.dec.delivered = s.dec.delivered ++
          (s.dec.queue.filter (fun b => b.age + 1 = s.params.latDec)).map (fun b => b.word))

/-- R109: with the host taking output, `LAT` edges empty a unit of all it held, in order. -/
def Obligations.HeldBeatsLeaveWithinLatency : Prop :=
  (∀ (s : State) (pins : List (Pins Eib)) (rest : List HostEvent), s.params.legal = true → s.params.latEnc ≠ 0 →
    s.enc.Flowing s.params.latEnc → s.enc.live = true → pins.length = s.params.latEnc →
    (∀ p ∈ pins, p.rst = false ∧ p.outReady = true) → s.host = pins.map .encEdge ++ rest →
      ∃ t, Host.Core.run Sys2Proof.core s.params.latEnc s = .next t ∧
        t.enc.delivered = s.enc.delivered ++ s.enc.held) ∧
  (∀ (s : State) (pins : List (Pins Dib)) (rest : List HostEvent), s.params.legal = true → s.params.latDec ≠ 0 →
    s.dec.Flowing s.params.latDec → s.dec.live = true → pins.length = s.params.latDec →
    (∀ p ∈ pins, p.rst = false ∧ p.outReady = true) → s.host = pins.map .decEdge ++ rest →
      ∃ t, Host.Core.run Sys2Proof.core s.params.latDec s = .next t ∧
        t.dec.delivered = s.dec.delivered ++ s.dec.held)
end

