-- ==== Sys2Proof/Laws/State.lean ====
section
/-!
SUPPORT. One lemma per field per update: what each operation on a unit, and each half of an edge, does to each field.
-/

namespace Sys2Proof.Machine

section Unit

variable {α β : Type} (u : StreamUnit α β)

@[simp] theorem StreamUnit.reset_live : u.reset.live = true := rfl

@[simp] theorem StreamUnit.reset_queue : u.reset.queue = [] := rfl

@[simp] theorem StreamUnit.reset_accepted : u.reset.accepted = [] := rfl

@[simp] theorem StreamUnit.reset_delivered : u.reset.delivered = [] := rfl

@[simp] theorem StreamUnit.reset_cycle : u.reset.cycle = u.cycle + 1 := rfl

@[simp] theorem StreamUnit.gate_live : u.gate.live = false := rfl

@[simp] theorem StreamUnit.gate_queue : u.gate.queue = u.queue := rfl

@[simp] theorem StreamUnit.gate_accepted : u.gate.accepted = u.accepted := rfl

@[simp] theorem StreamUnit.gate_delivered : u.gate.delivered = u.delivered := rfl

@[simp] theorem StreamUnit.gate_cycle : u.gate.cycle = u.cycle := rfl

@[simp] theorem StreamUnit.tick_live : u.tick.live = u.live := rfl

@[simp] theorem StreamUnit.tick_accepted : u.tick.accepted = u.accepted := rfl

@[simp] theorem StreamUnit.tick_delivered : u.tick.delivered = u.delivered := rfl

@[simp] theorem StreamUnit.tick_cycle : u.tick.cycle = u.cycle + 1 := rfl

@[simp] theorem StreamUnit.tick_queue :
    u.tick.queue = u.queue.map (fun b => { b with age := b.age + 1 }) := rfl

@[simp] theorem StreamUnit.tick_length : u.tick.queue.length = u.queue.length := by simp

section Accept

variable (lat : Nat) (i : α) (o : β)

@[simp] theorem StreamUnit.accept_live : (u.accept lat i o).live = u.live := by
  unfold StreamUnit.accept; split <;> rfl

@[simp] theorem StreamUnit.accept_accepted : (u.accept lat i o).accepted = u.accepted ++ [i] := by
  unfold StreamUnit.accept; split <;> rfl

@[simp] theorem StreamUnit.accept_cycle : (u.accept lat i o).cycle = u.cycle := by
  unfold StreamUnit.accept; split <;> rfl

@[simp] theorem StreamUnit.accept_queue_comb : (u.accept 0 i o).queue = u.queue := rfl

@[simp] theorem StreamUnit.accept_delivered_comb : (u.accept 0 i o).delivered = u.delivered ++ [o] := rfl

theorem StreamUnit.accept_queue (h : lat ≠ 0) : (u.accept lat i o).queue = u.queue ++ [⟨o, 0⟩] := by
  simp [StreamUnit.accept, h]

theorem StreamUnit.accept_delivered (h : lat ≠ 0) : (u.accept lat i o).delivered = u.delivered := by
  simp [StreamUnit.accept, h]

end Accept

section OutTransfer

variable (lat : Nat) (comb free : β) (p : Pins α)

@[simp] theorem StreamUnit.outTransfer_live : (u.outTransfer lat comb free p).live = u.live := by
  unfold StreamUnit.outTransfer; split <;> rfl

@[simp] theorem StreamUnit.outTransfer_accepted : (u.outTransfer lat comb free p).accepted = u.accepted := by
  unfold StreamUnit.outTransfer; split <;> rfl

@[simp] theorem StreamUnit.outTransfer_cycle : (u.outTransfer lat comb free p).cycle = u.cycle := by
  unfold StreamUnit.outTransfer; split <;> rfl

@[simp] theorem StreamUnit.outTransfer_comb : u.outTransfer 0 comb free p = u := by
  simp [StreamUnit.outTransfer]

end OutTransfer

end Unit

section Drain

variable (s : State) (pe : Pins Eib) (pd : Pins Dib)

@[simp] theorem State.encDrain_params : (s.encDrain pe).params = s.params := rfl

@[simp] theorem State.encDrain_dec : (s.encDrain pe).dec = s.dec := rfl

@[simp] theorem State.encDrain_ff : (s.encDrain pe).ff = s.ff := rfl

@[simp] theorem State.encDrain_host : (s.encDrain pe).host = s.host := rfl

@[simp] theorem State.decDrain_params : (s.decDrain pd).params = s.params := rfl

@[simp] theorem State.decDrain_enc : (s.decDrain pd).enc = s.enc := rfl

@[simp] theorem State.decDrain_ff : (s.decDrain pd).ff = s.ff := rfl

@[simp] theorem State.decDrain_host : (s.decDrain pd).host = s.host := rfl

@[simp] theorem State.encDrain_live : (s.encDrain pe).enc.live = s.enc.live := by simp [State.encDrain]

@[simp] theorem State.decDrain_live : (s.decDrain pd).dec.live = s.dec.live := by simp [State.decDrain]

@[simp] theorem State.encDrain_accepted : (s.encDrain pe).enc.accepted = s.enc.accepted := by simp [State.encDrain]

@[simp] theorem State.decDrain_accepted : (s.decDrain pd).dec.accepted = s.dec.accepted := by simp [State.decDrain]

end Drain

section Reset

variable (p : Params)

@[simp] theorem State.resetWith_params : (State.resetWith p).params = p := rfl

@[simp] theorem State.resetWith_enc : (State.resetWith p).enc = StreamUnit.empty Eib Eob := rfl

@[simp] theorem State.resetWith_dec : (State.resetWith p).dec = StreamUnit.empty Dib Dob := rfl

@[simp] theorem State.resetWith_ff : (State.resetWith p).ff = 0#3 := rfl

@[simp] theorem State.resetWith_host : (State.resetWith p).host = [] := rfl

end Reset

section Fetch

variable (s : State) (nbits w : Nat)

@[simp] theorem State.withFetchWord_params : (s.withFetchWord nbits w).params = s.params := rfl

@[simp] theorem State.withFetchWord_enc : (s.withFetchWord nbits w).enc = s.enc := rfl

@[simp] theorem State.withFetchWord_dec : (s.withFetchWord nbits w).dec = s.dec := rfl

@[simp] theorem State.withFetchWord_ff : (s.withFetchWord nbits w).ff = s.ff := rfl

@[simp] theorem State.withFetchWord_host : (s.withFetchWord nbits w).host = offerWord nbits w :: s.host := rfl

end Fetch

end Sys2Proof.Machine
end

