-- ==== Sys2Proof/Laws/Words.lean ====
section
/-!
SUPPORT. Each field of a laid-out beat word is the field it was laid out with, and a flag word's flags are its flags.
-/

namespace Sys2Proof

@[simp] theorem eibTwo_packEib (two : Bool) (b0 b1 : Byte) : eibTwo (packEib two b0 b1) = two := by
  simp only [eibTwo, packEib, BitVec.getLsbD_append]
  cases two <;> simp

@[simp] theorem eibB0_packEib (two : Bool) (b0 b1 : Byte) : eibB0 (packEib two b0 b1) = b0 := by
  ext i hi
  simp only [eibB0, packEib, BitVec.getElem_extractLsb', BitVec.getLsbD_append]
  grind

@[simp] theorem eibB1_packEib (two : Bool) (b0 b1 : Byte) : eibB1 (packEib two b0 b1) = b1 := by
  ext i hi
  simp only [eibB1, packEib, BitVec.getElem_extractLsb', BitVec.getLsbD_append]
  grind

@[simp] theorem dibLast_packDib (last : Bool) (n : BitVec 2) (c0 c1 c2 : Byte) :
    dibLast (packDib last n c0 c1 c2) = last := by
  simp only [dibLast, packDib, BitVec.getLsbD_append]
  cases last <;> simp

@[simp] theorem dibCount_packDib (last : Bool) (n : BitVec 2) (c0 c1 c2 : Byte) :
    dibCount (packDib last n c0 c1 c2) = n := by
  ext i hi
  simp only [dibCount, packDib, BitVec.getElem_extractLsb', BitVec.getLsbD_append]
  grind

@[simp] theorem dibCh0_packDib (last : Bool) (n : BitVec 2) (c0 c1 c2 : Byte) :
    dibCh0 (packDib last n c0 c1 c2) = c0 := by
  ext i hi
  simp only [dibCh0, packDib, BitVec.getElem_extractLsb', BitVec.getLsbD_append]
  grind

@[simp] theorem dibCh1_packDib (last : Bool) (n : BitVec 2) (c0 c1 c2 : Byte) :
    dibCh1 (packDib last n c0 c1 c2) = c1 := by
  ext i hi
  simp only [dibCh1, packDib, BitVec.getElem_extractLsb', BitVec.getLsbD_append]
  grind

@[simp] theorem dibCh2_packDib (last : Bool) (n : BitVec 2) (c0 c1 c2 : Byte) :
    dibCh2 (packDib last n c0 c1 c2) = c2 := by
  ext i hi
  simp only [dibCh2, packDib, BitVec.getElem_extractLsb', BitVec.getLsbD_append]
  grind

/-- An encoder word is laid out from its own fields. -/
theorem packEib_fields (w : Eib) : packEib (eibTwo w) (eibB0 w) (eibB1 w) = w := by
  refine BitVec.eq_of_getLsbD_eq fun i hi => ?_
  simp only [packEib, eibTwo, eibB0, eibB1, BitVec.getLsbD_append, BitVec.getLsbD_extractLsb']
  interval_cases i <;> simp

/-- A decoder word is laid out from its own fields. -/
theorem packDib_fields (w : Dib) : packDib (dibLast w) (dibCount w) (dibCh0 w) (dibCh1 w) (dibCh2 w) = w := by
  refine BitVec.eq_of_getLsbD_eq fun i hi => ?_
  simp only [packDib, dibLast, dibCount, dibCh0, dibCh1, dibCh2, BitVec.getLsbD_append, BitVec.getLsbD_extractLsb']
  interval_cases i <;> simp

/-- The four values of a two-bit count. -/
theorem count_cases (n : BitVec 2) : n = 0#2 ∨ n = 1#2 ∨ n = 2#2 ∨ n = 3#2 := by
  revert n; decide

namespace Machine

@[simp] theorem eobCount_packEob (n : BitVec 2) (c0 c1 c2 : Byte) : eobCount (packEob n c0 c1 c2) = n := by
  ext i hi
  simp only [eobCount, packEob, BitVec.getElem_extractLsb', BitVec.getLsbD_append]
  grind

@[simp] theorem eobCh0_packEob (n : BitVec 2) (c0 c1 c2 : Byte) : eobCh0 (packEob n c0 c1 c2) = c0 := by
  ext i hi
  simp only [eobCh0, packEob, BitVec.getElem_extractLsb', BitVec.getLsbD_append]
  grind

@[simp] theorem eobCh1_packEob (n : BitVec 2) (c0 c1 c2 : Byte) : eobCh1 (packEob n c0 c1 c2) = c1 := by
  ext i hi
  simp only [eobCh1, packEob, BitVec.getElem_extractLsb', BitVec.getLsbD_append]
  grind

@[simp] theorem eobCh2_packEob (n : BitVec 2) (c0 c1 c2 : Byte) : eobCh2 (packEob n c0 c1 c2) = c2 := by
  ext i hi
  simp only [eobCh2, packEob, BitVec.getElem_extractLsb', BitVec.getLsbD_append]
  grind

section Dob

variable (last : Bool) (n : BitVec 2) (bf ff : FrameFlags) (code : ErrorCode) (y0 y1 : Byte)

@[simp] theorem dobLast_packDob : dobLast (packDob last n bf ff code y0 y1) = last := by
  simp only [dobLast, packDob, BitVec.getLsbD_append]
  cases last <;> simp

@[simp] theorem dobCount_packDob : dobCount (packDob last n bf ff code y0 y1) = n := by
  ext i hi
  simp only [dobCount, packDob, BitVec.getElem_extractLsb', BitVec.getLsbD_append]
  grind

@[simp] theorem dobBeatFlags_packDob : dobBeatFlags (packDob last n bf ff code y0 y1) = bf := by
  ext i hi
  simp only [dobBeatFlags, packDob, BitVec.getElem_extractLsb', BitVec.getLsbD_append]
  grind

@[simp] theorem dobFrameFlags_packDob : dobFrameFlags (packDob last n bf ff code y0 y1) = ff := by
  ext i hi
  simp only [dobFrameFlags, packDob, BitVec.getElem_extractLsb', BitVec.getLsbD_append]
  grind

@[simp] theorem dobCode_packDob : dobCode (packDob last n bf ff code y0 y1) = code := by
  ext i hi
  simp only [dobCode, packDob, BitVec.getElem_extractLsb', BitVec.getLsbD_append]
  grind

@[simp] theorem dobByte0_packDob : dobByte0 (packDob last n bf ff code y0 y1) = y0 := by
  ext i hi
  simp only [dobByte0, packDob, BitVec.getElem_extractLsb', BitVec.getLsbD_append]
  grind

@[simp] theorem dobByte1_packDob : dobByte1 (packDob last n bf ff code y0 y1) = y1 := by
  ext i hi
  simp only [dobByte1, packDob, BitVec.getElem_extractLsb', BitVec.getLsbD_append]
  grind

end Dob

/-- The big-endian value of a byte pair as a number (R28). -/
theorem pairWord_toNat (b0 b1 : Byte) : (pairWord b0 b1).toNat = b0.toNat * 256 + b1.toNat := by
  have : pairWord b0 b1 = (b0 ++ b1 : BitVec (8 + 8)) := rfl
  rw [this, BitVec.toNat_append, ← Nat.shiftLeft_add_eq_or_of_lt b1.isLt, Nat.shiftLeft_eq]

@[simp] theorem flagIc_packFlags (o l c : Bool) : flagIc (packFlags o l c) = c := by
  cases o <;> cases l <;> cases c <;> rfl

@[simp] theorem flagIl_packFlags (o l c : Bool) : flagIl (packFlags o l c) = l := by
  cases o <;> cases l <;> cases c <;> rfl

@[simp] theorem flagDo_packFlags (o l c : Bool) : flagDo (packFlags o l c) = o := by
  cases o <;> cases l <;> cases c <;> rfl

end Machine

end Sys2Proof
end

