-- ==== Sys2Proof/Laws/Ops.lean ====
section
/-!
SUPPORT. One lemma per shared operation that says once everything it can do; later proofs cite it and do not unfold it.
-/

namespace Sys2Proof.Machine

/-! ### Taking an input beat -/

theorem acceptEnc_room {i : Eib} {o : Eob} {s : State} (hl : s.enc.live = true)
    (hr : s.enc.hasRoom s.params.latEnc s.params.depthEnc = true) :
    acceptEnc i o s = .next { s with enc := s.enc.accept s.params.latEnc i o } := by
  simp [acceptEnc, hl, hr]

theorem acceptEnc_full {i : Eib} {o : Eob} {s : State} (hl : s.enc.live = true)
    (hr : s.enc.hasRoom s.params.latEnc s.params.depthEnc = false) : acceptEnc i o s = .next s := by
  simp [acceptEnc, hl, hr]

theorem acceptDec_room {i : Dib} {r : Dob × FrameFlags} {s : State} (hl : s.dec.live = true)
    (hr : s.dec.hasRoom s.params.latDec s.params.depthDec = true) :
    acceptDec i r s = .next { s with dec := s.dec.accept s.params.latDec i r.1, ff := r.2 } := by
  simp [acceptDec, hl, hr]

theorem acceptDec_full {i : Dib} {r : Dob × FrameFlags} {s : State} (hl : s.dec.live = true)
    (hr : s.dec.hasRoom s.params.latDec s.params.depthDec = false) : acceptDec i r s = .next s := by
  simp [acceptDec, hl, hr]

/-- Everything an encoder input beat can do to a state. -/
theorem acceptEnc_cases {i : Eib} {o : Eob} {s t : State} (h : acceptEnc i o s = .next t) :
    s.enc.live = true ∧
      ((s.enc.hasRoom s.params.latEnc s.params.depthEnc = true ∧
          t = { s with enc := s.enc.accept s.params.latEnc i o }) ∨
        (s.enc.hasRoom s.params.latEnc s.params.depthEnc = false ∧ t = s)) := by
  unfold acceptEnc at h
  split at h
  · cases h
  · next hl =>
    refine ⟨by simpa using hl, ?_⟩
    split at h
    · next hr => exact .inl ⟨hr, by cases h; rfl⟩
    · next hr => exact .inr ⟨by simpa using hr, by cases h; rfl⟩

/-- Everything a decoder input beat can do to a state. -/
theorem acceptDec_cases {i : Dib} {r : Dob × FrameFlags} {s t : State} (h : acceptDec i r s = .next t) :
    s.dec.live = true ∧
      ((s.dec.hasRoom s.params.latDec s.params.depthDec = true ∧
          t = { s with dec := s.dec.accept s.params.latDec i r.1, ff := r.2 }) ∨
        (s.dec.hasRoom s.params.latDec s.params.depthDec = false ∧ t = s)) := by
  unfold acceptDec at h
  split at h
  · cases h
  · next hl =>
    refine ⟨by simpa using hl, ?_⟩
    split at h
    · next hr => exact .inl ⟨hr, by cases h; rfl⟩
    · next hr => exact .inr ⟨by simpa using hr, by cases h; rfl⟩

/-! ### An operation as an input beat -/

/-- An encoder beat runs as the taking of its word with its beat function. -/
theorem exec_decode_eib (w : Eib) (s : State) : exec (decode (.eib w)) s = acceptEnc w (encBeat w) s := by
  have hw := packEib_fields w
  cases h : eibTwo w <;> simp_all [decode, decodeEib, encBeat, exec, execEnc1, execEnc2]

/-- A decoder beat runs as the taking of its word with its beat function at the current frame flags. -/
theorem exec_decode_dib (w : Dib) (s : State) : exec (decode (.dib w)) s = acceptDec w (decBeat s.ff w) s := by
  have hw := packDib_fields w
  rcases count_cases (dibCount w) with h | h | h | h <;>
    simp_all [decode, decodeDib, decBeat, exec, execDec0, execDec1, execDec2, execDec3]

/-! ### The handshake of a unit -/

section Unit

variable {α β : Type} {u : StreamUnit α β}

theorem outValid_queued {lat : Nat} {p : Pins α} (hlat : lat ≠ 0) :
    u.outValid lat p = true ↔ p.rst = false ∧ ∃ b q, u.queue = b :: q ∧ lat - 1 ≤ b.age := by
  unfold StreamUnit.outValid
  cases hq : u.queue <;> simp [hlat]

/-- Everything the output transfer of an edge can do to a unit. -/
theorem outTransfer_cases (lat : Nat) (comb free : β) (p : Pins α) (u : StreamUnit α β) :
    (u.outTransfer lat comb free p = u ∧
        ¬ (lat ≠ 0 ∧ u.outValid lat p = true ∧ p.outReady = true)) ∨
      (lat ≠ 0 ∧ p.outReady = true ∧ u.outValid lat p = true ∧
        ∃ b q, u.queue = b :: q ∧ lat - 1 ≤ b.age ∧
          u.outTransfer lat comb free p = { u with queue := q, delivered := u.delivered ++ [b.word] }) := by
  by_cases h : lat ≠ 0 ∧ u.outValid lat p = true ∧ p.outReady = true
  · obtain ⟨hlat, hv, hr⟩ := h
    obtain ⟨-, b, q, hq, hage⟩ := (outValid_queued hlat).1 hv
    refine .inr ⟨hlat, hr, hv, b, q, hq, hage, ?_⟩
    simp [StreamUnit.outTransfer, StreamUnit.outBeat, hlat, hv, hr, hq]
  · exact .inl ⟨if_neg h, h⟩

/-- What the host has and what the unit holds are together unchanged by an output transfer. -/
theorem outTransfer_stream (lat : Nat) (comb free : β) (p : Pins α) (u : StreamUnit α β) :
    (u.outTransfer lat comb free p).delivered ++ (u.outTransfer lat comb free p).held = u.delivered ++ u.held := by
  obtain ⟨h, -⟩ | ⟨-, -, -, b, q, hq, -, h⟩ := outTransfer_cases lat comb free p u
  · rw [h]
  · rw [h]
    simp [StreamUnit.held, hq]

@[simp] theorem tick_held (u : StreamUnit α β) : u.tick.held = u.held := by
  simp [StreamUnit.held, Function.comp_def]

theorem accept_held_comb (i : α) (o : β) : (u.accept 0 i o).held = u.held := rfl

theorem accept_held {lat : Nat} (h : lat ≠ 0) (i : α) (o : β) : (u.accept lat i o).held = u.held ++ [o] := by
  simp [StreamUnit.held, StreamUnit.accept_queue u lat i o h]

end Unit

/-! ### One edge -/

/-- Everything an edge of the encoder can do that gives a next state. -/
theorem encEdge_cases {p : Pins Eib} {s t : State} (h : encEdge p s = .next t) :
    (p.rst = true ∧ t = { s with enc := s.enc.reset }) ∨
      (p.rst = false ∧ s.enc.live = true ∧ p.inValid = true ∧ s.encInReady p = true ∧
        exec (decode (.eib p.inBeat)) (s.encDrain p) = .next t) ∨
      (p.rst = false ∧ s.enc.live = true ∧ (p.inValid && s.encInReady p) = false ∧ t = s.encDrain p) := by
  unfold encEdge at h
  split at h
  · next hr => exact .inl ⟨hr, by cases h; rfl⟩
  · next hr =>
    split at h
    · cases h
    · next hl =>
      split at h
      · next hi =>
        rw [Bool.and_eq_true] at hi
        exact .inr (.inl ⟨by simpa using hr, by simpa using hl, hi.1, hi.2, h⟩)
      · next hi => exact .inr (.inr ⟨by simpa using hr, by simpa using hl, by simpa using hi, by cases h; rfl⟩)

/-- Everything an edge of the decoder can do that gives a next state. -/
theorem decEdge_cases {p : Pins Dib} {s t : State} (h : decEdge p s = .next t) :
    (p.rst = true ∧ t = { s with dec := s.dec.reset, ff := 0#3 }) ∨
      (p.rst = false ∧ s.dec.live = true ∧ p.inValid = true ∧ s.decInReady p = true ∧
        exec (decode (.dib p.inBeat)) (s.decDrain p) = .next t) ∨
      (p.rst = false ∧ s.dec.live = true ∧ (p.inValid && s.decInReady p) = false ∧ t = s.decDrain p) := by
  unfold decEdge at h
  split at h
  · next hr => exact .inl ⟨hr, by cases h; rfl⟩
  · next hr =>
    split at h
    · cases h
    · next hl =>
      split at h
      · next hi =>
        rw [Bool.and_eq_true] at hi
        exact .inr (.inl ⟨by simpa using hr, by simpa using hl, hi.1, hi.2, h⟩)
      · next hi => exact .inr (.inr ⟨by simpa using hr, by simpa using hl, by simpa using hi, by cases h; rfl⟩)

/-! ### The tail of a decoder beat -/

section Finish

variable (last : Bool) (bf : FrameFlags) (bytes : ByteOut) (ff : FrameFlags)

@[simp] theorem finishBeat_last : dobLast (finishBeat last bf bytes ff).1 = last := by simp [finishBeat]

@[simp] theorem finishBeat_beatFlags : dobBeatFlags (finishBeat last bf bytes ff).1 = bf := by simp [finishBeat]

@[simp] theorem finishBeat_frameFlags : dobFrameFlags (finishBeat last bf bytes ff).1 = ff ||| bf := by
  simp [finishBeat, enterError]

@[simp] theorem finishBeat_code : dobCode (finishBeat last bf bytes ff).1 = prio (ff ||| bf) := by
  simp [finishBeat, enterError]

@[simp] theorem finishBeat_count : dobCount (finishBeat last bf bytes ff).1 = (suppress bf ff bytes).count := by
  simp [finishBeat]

@[simp] theorem finishBeat_byte0 : dobByte0 (finishBeat last bf bytes ff).1 = (suppress bf ff bytes).byte0 := by
  simp [finishBeat]

@[simp] theorem finishBeat_byte1 : dobByte1 (finishBeat last bf bytes ff).1 = (suppress bf ff bytes).byte1 := by
  simp [finishBeat]

theorem finishBeat_ff : (finishBeat last bf bytes ff).2 = leaveError last (ff ||| bf) := rfl

end Finish

@[simp] theorem leaveError_last (ff : FrameFlags) : leaveError true ff = 0#3 := rfl

@[simp] theorem leaveError_open (ff : FrameFlags) : leaveError false ff = ff := rfl

theorem suppress_clean (bytes : ByteOut) : suppress 0#3 0#3 bytes = bytes := rfl

theorem suppress_failed {bf ff : FrameFlags} (h : ff ≠ 0#3 ∨ bf ≠ 0#3) (bytes : ByteOut) :
    suppress bf ff bytes = bytesNone := if_pos h

end Sys2Proof.Machine
end

