-- ==== Sys2Proof/Laws/PerInstr.lean ====
section
/-!
SUPPORT. A statement about every operation as syntax: the word `encode` gives it is one of its row of spec/opcode_table.json
(`word & mask = match`).
-/

namespace Sys2Proof.Laws

/-- The `mask` and `match` of the operation's row. -/
def row : Instr → Nat × Nat
  | .enc1 .. => (0x10000, 0x00000)
  | .enc2 .. => (0x10000, 0x10000)
  | .dec0 .. => (0x3000000, 0x0000000)
  | .dec1 .. => (0x3000000, 0x1000000)
  | .dec2 .. => (0x3000000, 0x2000000)
  | .dec3 .. => (0x3000000, 0x3000000)

/-- The number a beat word is. -/
def beatNat : Beat → Nat
  | .eib w => w.toNat
  | .dib w => w.toNat

/-- The operation's word matches its row of the table. -/
def RowMatch.Statement (i : Instr) : Prop := beatNat (encode i) &&& (row i).1 = (row i).2

/-- An encoder word under the mask of its rows is its `two` bit. -/
theorem packEib_masked (two : Bool) (b0 b1 : Byte) :
    (packEib two b0 b1).toNat &&& 0x10000 = if two then 0x10000 else 0 := by
  have h : packEib two b0 b1 &&& 0x10000#17 = if two then 0x10000#17 else 0#17 := by
    ext i hi
    simp only [packEib, BitVec.getElem_and, BitVec.getElem_append]
    cases two <;> interval_cases i <;> simp
  have := congrArg BitVec.toNat h
  cases two <;> simpa using this

/-- A decoder word under the mask of its rows is its `nchars` field in place. -/
theorem packDib_masked (last : Bool) (n : BitVec 2) (c0 c1 c2 : Byte) :
    packDib last n c0 c1 c2 &&& 0x3000000#27 =
      if n = 0#2 then 0#27 else if n = 1#2 then 0x1000000#27 else if n = 2#2 then 0x2000000#27 else 0x3000000#27 := by
  rcases count_cases n with rfl | rfl | rfl | rfl <;>
  · simp only [if_false, BitVec.reduceEq, if_pos]
    ext i hi
    simp only [packDib, BitVec.getElem_and, BitVec.getElem_append]
    interval_cases i <;> simp

theorem RowMatch.enc1 (b0 x1 : Byte) : RowMatch.Statement (.enc1 b0 x1) := packEib_masked false b0 x1

theorem RowMatch.enc2 (b0 b1 : Byte) : RowMatch.Statement (.enc2 b0 b1) := packEib_masked true b0 b1

theorem RowMatch.dec0 (last : Bool) (x0 x1 x2 : Byte) : RowMatch.Statement (.dec0 last x0 x1 x2) :=
  congrArg BitVec.toNat (packDib_masked last 0#2 x0 x1 x2)

theorem RowMatch.dec1 (last : Bool) (ch0 x1 x2 : Byte) : RowMatch.Statement (.dec1 last ch0 x1 x2) :=
  congrArg BitVec.toNat (packDib_masked last 1#2 ch0 x1 x2)

theorem RowMatch.dec2 (last : Bool) (ch0 ch1 x2 : Byte) : RowMatch.Statement (.dec2 last ch0 ch1 x2) :=
  congrArg BitVec.toNat (packDib_masked last 2#2 ch0 ch1 x2)

theorem RowMatch.dec3 (last : Bool) (ch0 ch1 ch2 : Byte) : RowMatch.Statement (.dec3 last ch0 ch1 ch2) :=
  congrArg BitVec.toNat (packDib_masked last 3#2 ch0 ch1 ch2)

end Sys2Proof.Laws
end

