-- ==== Sys2Proof/Tests/Slice0.lean ====
section
/-!
SUPPORT. Tests: ill-formed terms that the checks refuse, words written out from the spec's encodings, vectors of
95_test_vectors.md (the row is named at each), and a witness for the hypotheses of each statement.
-/

namespace Sys2Proof.Tests

open Sys2Proof.Machine Sys2Proof.Claims

/-- The state an outcome goes on with. -/
def stateOf : Host.Outcome State Fault Refusal → Option State
  | .next s => some s
  | .fault _ => none
  | .refused _ => none

/-- Reset, with latency 0 and depth 0 in both units. -/
def comb : State := State.resetWith ⟨0, 0, 0, 0⟩

/-- Reset with some frame flags already set. -/
def withFlags (ff : FrameFlags) : State := { State.reset with ff := ff }

/-- The one decoder output word held after an operation run on a state of latency 1. -/
def heldDob (o : Host.Outcome State Fault Refusal) : Option (List Dob × FrameFlags) :=
  (stateOf o).map (fun s => (s.dec.held, s.ff))

/-- The encoder output words held after an operation run on a state of latency 1. -/
def heldEob (o : Host.Outcome State Fault Refusal) : Option (List Eob) :=
  (stateOf o).map (fun s => s.enc.held)

/-- An encoder edge with `rst = 0`. -/
def encPins (v : Bool) (w : Eib) (r : Bool) : Pins Eib := ⟨false, v, w, r⟩

/-- A decoder edge with `rst = 0`. -/
def decPins (v : Bool) (w : Dib) (r : Bool) : Pins Dib := ⟨false, v, w, r⟩

/-- A full encoder of latency 1 whose beat `"%69"` may leave: cycle 2 of program P7. -/
def fullEnc : State :=
  { State.reset with
    enc := { live := true, queue := [⟨0x3253639#26, 0⟩], accepted := [0x14865#17], delivered := [], cycle := 1 } }

/-- A full decoder of latency 1 that holds the output of `DEC3 "GGW"` in an open frame (vector F1). -/
def fullDec : State :=
  { State.reset with
    dec := { live := true, queue := [⟨0x0930000#27, 0⟩], accepted := [0x3474757#27], delivered := [], cycle := 1 }
    ff := 0b100#3 }

/-! ### The checks refuse what is ill formed (R5, R50, R75, R77) -/

theorem test_params_depth_without_latency : Params.legal ⟨0, 1, 1, 1⟩ = false := by decide
theorem test_params_depth_below_latency : Params.legal ⟨1, 3, 1, 2⟩ = false := by decide
theorem test_params_reference : Params.legal Params.reference = true := by decide
theorem test_written_enc1_lane : Instr.written (.enc1 0x41 0xFF) = false := by decide
theorem test_written_dec0_lane : Instr.written (.dec0 true 0 1 0) = false := by decide
theorem test_written_dec1_lane : Instr.written (.dec1 true 0x42 0x42 0) = false := by decide
theorem test_written_dec2_lane : Instr.written (.dec2 true 0x55 0x35 0x40) = false := by decide
theorem test_duty_byte_before_pair : encodeDuty [.enc1 0x41 0, .enc2 0x42 0x43] = false := by decide
theorem test_duty_decoder_beat_in_message : encodeDuty [.dec0 true 0 0 0] = false := by decide
theorem test_duty_pair_before_triple :
    decodeDuty [.dec2 false 0x55 0x35 0, .dec3 true 0x42 0x42 0x38] = false := by decide
theorem test_duty_last_too_early :
    decodeDuty [.dec3 true 0x42 0x42 0x38, .dec2 true 0x55 0x35 0] = false := by decide
theorem test_duty_last_missing : decodeDuty [.dec3 false 0x42 0x42 0x38] = false := by decide
theorem test_duty_empty_beat_after_chunk :
    decodeDuty [.dec3 false 0x42 0x42 0x38, .dec0 true 0 0 0] = false := by decide
theorem test_duty_no_beat : decodeDuty [] = false := by decide

/-! ### Words written out from the spec's encodings (R39, R41; the columns of opcode_table.json) -/

theorem test_decode_enc1 : decode (.eib 0b00100000111111111#17) = .enc1 0x41 0xFF := by decide
theorem test_decode_enc2 : decode (.eib 0b10100000101000010#17) = .enc2 0x41 0x42 := by decide
theorem test_decode_dec0 : decode (.dib 0b100000000000000000000000001#27) = .dec0 true 0 0 1 := by decide
theorem test_decode_dec1 : decode (.dib 0b001010000100000000000000000#27) = .dec1 false 0x42 0 0 := by decide
theorem test_decode_dec2 : decode (.dib 0b110010101010011010101000000#27) = .dec2 true 0x55 0x35 0x40 := by decide
theorem test_decode_dec3 : decode (.dib 0b111010000100100001000111000#27) = .dec3 true 0x42 0x42 0x38 := by decide
theorem test_encode_dec3 : encode (.dec3 false 0x47 0x47 0x57) = .dib 0x3474757#27 := by decide
theorem test_encode_enc1 : encode (.enc1 0xE8 0) = .eib 0x0E800#17 := by decide
theorem test_reject_padding : decodeWord 24 0x20000 = .error (.paddingSet 24 0x20000) := by rfl
theorem test_reject_width : decodeWord 64 0 = .error (.noSuchFormat 64) := by rfl

/-! ### The alphabet (section 2.1) -/

theorem test_lut_lower_z : decLut 0x7A#8 = ⟨true, 35⟩ := by decide
theorem test_lut_no_fold_above_ascii : decLut 0xE1#8 = ⟨false, 0⟩ := by decide
theorem test_lut_backquote : decLut 0x60#8 = ⟨false, 0⟩ := by decide

/-! ### One operation each (sections 2.2 to 2.8) -/

theorem test_enc2_first_carry : heldEob (exec (.enc2 0x07 0xE9) State.reset) = some [0x3303031#26] := by decide
theorem test_enc2_largest : heldEob (exec (.enc2 0xFF 0xFF) State.reset) = some [0x3464757#26] := by decide
theorem test_enc1_ignored_lane : heldEob (exec (.enc1 0x41 0xFF) State.reset) = some [0x24B3100#26] := by decide
theorem test_enc1_largest : heldEob (exec (.enc1 0xFF 0) State.reset) = some [0x2553500#26] := by decide
theorem test_dec0_closes_failed_frame :
    heldDob (exec (.dec0 true 0 0 0) (withFlags 0b100#3)) = some ([0x4130000#27], 0#3) := by decide
theorem test_dec0_keeps_open_frame :
    heldDob (exec (.dec0 false 0 0 0) (withFlags 0b010#3)) = some ([0x00A0000#27], 0b010#3) := by decide
theorem test_dec1_invalid_too :
    heldDob (exec (.dec1 true 0x40 0 0) State.reset) = some ([0x46D0000#27], 0#3) := by decide
theorem test_dec1_not_last :
    heldDob (exec (.dec1 false 0x42 0 0) State.reset) = some ([0x04A0000#27], 0b010#3) := by decide
theorem test_dec2_wraps :
    heldDob (exec (.dec2 true 0x56 0x35 0) State.reset) = some ([0x5000000#27], 0#3) := by decide
theorem test_dec2_unused_invalid_lane :
    heldDob (exec (.dec2 true 0x55 0x35 0x40) State.reset) = some ([0x500FF00#27], 0#3) := by decide
theorem test_dec3_smallest_overflow :
    heldDob (exec (.dec3 false 0x47 0x47 0x57) State.reset) = some ([0x0930000#27], 0b100#3) := by decide
theorem test_dec3_lower_case_and_space :
    heldDob (exec (.dec3 true 0x61 0x20 0x62) State.reset) = some ([0x6005D61#27], 0#3) := by decide

/-- Vector F2, second beat: InvalidCharacter outranks an earlier overflow. -/
theorem test_precedence : decBeat 0b100#3 0x5400000#27 = (0x47D0000#27, 0#3) := by decide

/-- Vector F4, second beat: a valid triple in a failed frame gives no bytes. -/
theorem test_suppression : decBeat 0b010#3 0x7424238#27 = (0x40A0000#27, 0#3) := by decide

/-! ### One step each -/

/-- Program P7, cycle 2: full, output stalled, nothing moves. -/
theorem test_p7_cycle2 :
    (stateOf (step { fullEnc with host := [.encEdge (encPins true 0x16C6C false)] })).map
      (fun t => (t.enc.held, t.enc.delivered, t.enc.accepted)) = some ([0x3253639#26], [], [0x14865#17]) := by decide

/-- Program P7, cycle 3: full, but the head leaves at the same edge, so the next beat is taken. -/
theorem test_p7_cycle3 :
    (stateOf (step { fullEnc with host := [.encEdge (encPins true 0x16C6C true)] })).map
      (fun t => (t.enc.queue, t.enc.delivered)) = some ([⟨0x3205644#26, 0⟩], [0x3253639#26]) := by decide

/-- Latency 0: in and out at one edge (R106). -/
theorem test_comb_decoder_step :
    (stateOf (step { comb with host := [.decEdge (decPins true 0x3474757 true)] })).map
      (fun t => (t.dec.queue, t.dec.delivered, t.ff)) = some ([], [0x0930000#27], 0b100#3) := by decide

/-- Reset in an open frame (R80, R101). -/
theorem test_reset_in_frame :
    (stateOf (step { fullDec with host := [.decEdge ⟨true, true, 0x7424238, true⟩] })).map
      (fun t => (t.dec.queue, t.dec.delivered, t.ff)) = some ([], [], 0#3) := by decide

/-- The first step after reset runs the beat that is placed for it. -/
theorem test_fetch :
    (stateOf (step (State.reset.withFetchWord 32 0x7424238))).map (fun t => t.dec.held) = some [0x6004142#27] := by decide

/-- R87: beats that break the host's duty are still decoded beat by beat (program P6). -/
theorem test_mis_split :
    (decRun 0#3 [0x2553500#27, 0x7424238#27]).1.flatMap dobBytes = [0xFF, 0x41, 0x42] ∧
      refDecode [0x55, 0x35, 0x42, 0x42, 0x38] = .bytes [0x58, 0x02, 0x73] := by decide

/-! ### Witnesses: a state and operands that meet all the hypotheses of a statement, clause by clause -/

theorem resetWith_inv (p : Params) (h : p.legal = true) : (State.resetWith p).Inv where
  legal := h
  enc_bounded := ⟨Nat.zero_le _, fun _ => rfl, List.Pairwise.nil⟩
  dec_bounded := ⟨Nat.zero_le _, fun _ => rfl, List.Pairwise.nil⟩
  enc_stream := rfl
  dec_stream := rfl

theorem fullEnc_inv : fullEnc.Inv where
  legal := by decide
  enc_bounded := ⟨by decide, by decide, by simp [agesFall, fullEnc]⟩
  dec_bounded := ⟨by decide, by decide, by simp [agesFall, fullEnc, State.reset, State.resetWith, StreamUnit.empty]⟩
  enc_stream := by decide
  dec_stream := by decide

theorem fullDec_inv : fullDec.Inv where
  legal := by decide
  enc_bounded := ⟨by decide, by decide, by simp [agesFall, fullDec, State.reset, State.resetWith, StreamUnit.empty]⟩
  dec_bounded := ⟨by decide, by decide, by simp [agesFall, fullDec]⟩
  enc_stream := by decide
  dec_stream := by decide

theorem digitOf_B : DigitOf 0x42 11 := ⟨by decide, by decide⟩
theorem digitOf_8 : DigitOf 0x38 8 := ⟨by decide, by decide⟩
theorem digitOf_G : DigitOf 0x47 16 := ⟨by decide, by decide⟩
theorem digitOf_F : DigitOf 0x46 15 := ⟨by decide, by decide⟩
theorem digitOf_W : DigitOf 0x57 32 := ⟨by decide, by decide⟩
theorem invalid_at : Invalid 0x40 := by
  have h : ∀ v : Fin 45, ¬ (charAt v.val).toNat = upper 0x40 := by decide
  exact fun v hv => h ⟨v, hv.1⟩ hv.2

theorem witness_Enc2_and_Enc1 :
    EncFree State.reset ∧ State.reset.params.latEnc ≠ 0 ∧ EncFree comb ∧ comb.params.latEnc = 0 :=
  ⟨⟨rfl, .inr (by decide)⟩, by decide, ⟨rfl, .inl rfl⟩, rfl⟩

theorem witness_AcceptedBeat : EncFree State.reset ∧ DecFree (withFlags 0b001#3) ∧ DecFree comb :=
  ⟨⟨rfl, .inr (by decide)⟩, ⟨rfl, .inr (by decide)⟩, ⟨rfl, .inl rfl⟩⟩

/-- The largest accepted triple, `"FGW"`, in a clean frame and in a failed one; the smallest overflow, `"GGW"`; an invalid lane. -/
theorem witness_Dec3 :
    DecFree State.reset ∧ State.reset.ff = 0#3 ∧ DecFree (withFlags 0b001#3) ∧ (withFlags 0b001#3).ff ≠ 0#3 ∧
      (DigitOf 0x46 15 ∧ DigitOf 0x47 16 ∧ DigitOf 0x57 32 ∧ 15 + 16 * 45 + 32 * 2025 = 65535) ∧
      (DigitOf 0x47 16 ∧ DigitOf 0x57 32 ∧ 16 + 16 * 45 + 32 * 2025 = 65536) ∧ Invalid 0x40 :=
  ⟨⟨rfl, .inr (by decide)⟩, rfl, ⟨rfl, .inr (by decide)⟩, by decide,
    ⟨digitOf_F, digitOf_G, digitOf_W, by decide⟩, ⟨digitOf_G, digitOf_W, by decide⟩, invalid_at⟩

theorem witness_Dec2 :
    DecFree State.reset ∧ State.reset.ff = 0#3 ∧ DecFree (withFlags 0b010#3) ∧ (withFlags 0b010#3).ff ≠ 0#3 ∧
      DigitOf 0x42 11 ∧ DigitOf 0x38 8 ∧ Invalid 0x40 :=
  ⟨⟨rfl, .inr (by decide)⟩, rfl, ⟨rfl, .inr (by decide)⟩, by decide, digitOf_B, digitOf_8, invalid_at⟩

theorem witness_Dec1 : DecFree State.reset ∧ DigitOf 0x42 11 ∧ Invalid 0x40 :=
  ⟨⟨rfl, .inr (by decide)⟩, digitOf_B, invalid_at⟩

theorem witness_Dec0 : DecFree (withFlags 0b100#3) ∧ DecFree comb := ⟨⟨rfl, .inr (by decide)⟩, ⟨rfl, .inl rfl⟩⟩

theorem witness_ControlFields :
    (0x04100#17 &&& 0x10000#17 = 0#17) ∧ (0x14142#17 &&& 0x10000#17 = 0x10000#17) ∧
      (0x4000000#27 &&& 0x3000000#27 = 0#27) ∧ (0x5420000#27 &&& 0x3000000#27 = 0x1000000#27) ∧
      (0x6553500#27 &&& 0x3000000#27 = 0x2000000#27) ∧ (0x7424238#27 &&& 0x3000000#27 = 0x3000000#27) := by decide

theorem witness_TablesAreInverse : decLut 0x62#8 = ⟨true, 11⟩ := by decide

theorem witness_EncoderDigits : (0x57 : Byte) ∈ eobChars (encBeat 0x1FFFF#17) := by decide

theorem witness_EncoderBeatFunction :
    (0x14142#17).getLsbD 16 = true ∧ (0x04100#17).getLsbD 16 = false := by decide

theorem witness_BeatFlags :
    (0b011#3 = dobBeatFlags (decBeat 0#3 0x5400000#27).1) ∧
      ([0x40] : List Byte) = [dibCh0 0x5400000#27, dibCh1 0x5400000#27, dibCh2 0x5400000#27].take
        (dibCount 0x5400000#27).toNat := by decide

theorem witness_OutputBeatReportsTheFrame : 0b100#3 = dobBeatFlags (decBeat 0b001#3 0x3474757#27).1 := by decide

theorem witness_FailedFrame :
    (∀ v ∈ ([0x3474757#27, 0x6553500#27] : List Dib).dropLast, dibLast v = false) ∧
      dobBeatFlags (decBeat 0#3 0x3474757#27).1 ≠ 0#3 :=
  ⟨by simp [dibLast], by decide⟩

theorem witness_FrameCode :
    (0b111#3 = dobFrameFlags (decBeat 0b100#3 0x5400000#27).1) ∧
      (0b110#3 = dobFrameFlags (decBeat 0b100#3 0x5420000#27).1) ∧
      (0b010#3 = dobFrameFlags (decBeat 0#3 0x5420000#27).1) ∧ (0#3 = dobFrameFlags (decBeat 0#3 0x4000000#27).1) := by
  decide

theorem witness_UnusedInputLanes :
    (eibTwo 0x04100#17 = false ∧ eibTwo 0x041FF#17 = false ∧ eibB0 0x04100#17 = eibB0 0x041FF#17) ∧
      (dibLast 0x6553500#27 = dibLast 0x6553540#27 ∧ dibCount 0x6553500#27 = dibCount 0x6553540#27 ∧
        dibCh0 0x6553500#27 = dibCh0 0x6553540#27 ∧ dibCh1 0x6553500#27 = dibCh1 0x6553540#27 ∧
        ¬ 3 ≤ (dibCount 0x6553500#27).toNat) := by decide

theorem witness_UnusedOutputLanes :
    eobCount (encBeat 0x04100#17) = 2#2 ∧ dobCount (decBeat 0#3 0x5420000#27).1 = 0#2 ∧
      dobCount (decBeat 0#3 0x6553500#27).1 ≠ 2#2 := by decide

theorem witness_DecoderFrame : refDecode [0x42, 0x42, 0x38] = .bytes [0x41, 0x42] := by decide

theorem witness_EncoderOutputFeedsDecoder :
    (0x1FFFF#17).getLsbD 16 = true ∧ (0x04100#17).getLsbD 16 = false := by decide

/-- A canonical pair at the bound, `"U5"`, and one above it, `"V5"`. -/
theorem witness_CanonicalStrings :
    refDecode [0x55, 0x35] = .bytes [0xFF] ∧ refDecode [0x56, 0x35] = .bytes [0x00] := by decide

theorem witness_DutifulBeats :
    ∀ i ∈ [Instr.enc2 0x41 0x42, Instr.enc1 0x43 0, Instr.dec3 false 0x42 0x42 0x38], i.written = true := by decide

theorem witness_FramesDoNotInterfere : dibLast 0x6553500#27 = true := by decide

theorem witness_StepRunsTheOfferedBeat :
    (State.reset.enc.live = true ∧ State.reset.encInReady (encPins true 0x14142 false) = true) ∧
      (fullEnc.enc.live = true ∧ fullEnc.encInReady (encPins true 0x14142 true) = true) ∧
      (fullDec.dec.live = true ∧ fullDec.decInReady (decPins true 0x5420000 true) = true) := by decide

theorem witness_FetchedWord :
    decodeTableWord 24 0x14142 = some (.enc2 0x41 0x42) ∧ encode (.enc2 0x41 0x42) = .eib 0x14142#17 ∧
      State.reset.encInReady ⟨false, true, 0x14142#17, true⟩ = true ∧
      decodeTableWord 32 0x7424238 = some (.dec3 true 0x42 0x42 0x38) ∧
      encode (.dec3 true 0x42 0x42 0x38) = .dib 0x7424238#27 ∧
      State.reset.decInReady ⟨false, true, 0x7424238#27, true⟩ = true := by decide

theorem witness_ResetLeavesEmptyUnits :
    Params.legal ⟨0, 0, 0, 0⟩ = true ∧ Params.legal ⟨2, 3, 2, 5⟩ = true ∧ Params.legal ⟨4, 1, 4, 1⟩ = true := by decide

theorem witness_ResetEdge :
    ({ fullEnc with host := [.encEdge ⟨true, true, 0, true⟩] } : State).host = [.encEdge ⟨true, true, 0, true⟩] ∧
      ({ fullDec with host := [.decEdge ⟨true, true, 0, true⟩] } : State).host = [.decEdge ⟨true, true, 0, true⟩] := by
  decide

theorem witness_GatedUnit :
    ({ fullEnc with host := [.encGate, .encEdge (encPins true 0 true)] } : State).host =
        .encGate :: .encEdge (encPins true 0 true) :: [] ∧
      ({ fullDec with host := [.decGate, .decEdge ⟨true, false, 0, true⟩] } : State).host =
        .decGate :: .decEdge ⟨true, false, 0, true⟩ :: [] := by decide

theorem witness_Ports :
    fullEnc.enc.live = true ∧ fullEnc.params.latEnc ≠ 0 ∧ fullEnc.encOutValid (encPins true 0 true) = true ∧
      fullDec.dec.live = true ∧ fullDec.params.latDec ≠ 0 ∧ fullDec.decOutValid (decPins true 0 false) = true := by decide

/-- Both cases of the edge, with a beat offered and with none: the head leaves, and the full unit stalls; a unit with room. -/
theorem witness_EncoderEdge :
    fullEnc.Inv ∧ fullEnc.enc.live = true ∧ fullEnc.params.latEnc ≠ 0 ∧
      headRipe fullEnc.params.latEnc fullEnc.enc.queue ∧ fullEnc.enc.queue.length = fullEnc.params.depthEnc ∧
      State.reset.Inv ∧ State.reset.enc.queue.length < State.reset.params.depthEnc :=
  ⟨fullEnc_inv, rfl, by decide, ⟨_, rfl, by decide⟩, by decide, resetWith_inv _ (by decide), by decide⟩

theorem witness_DecoderEdge :
    fullDec.Inv ∧ fullDec.dec.live = true ∧ fullDec.params.latDec ≠ 0 ∧
      headRipe fullDec.params.latDec fullDec.dec.queue ∧ fullDec.dec.queue.length = fullDec.params.depthDec ∧
      State.reset.Inv ∧ State.reset.dec.queue.length < State.reset.params.depthDec :=
  ⟨fullDec_inv, rfl, by decide, ⟨_, rfl, by decide⟩, by decide, resetWith_inv _ (by decide), by decide⟩

theorem witness_CombinationalUnit :
    comb.enc.live = true ∧ comb.params.latEnc = 0 ∧ comb.dec.live = true ∧ comb.params.latDec = 0 := by decide

theorem witness_OfferedOutputBeatHolds :
    (fullEnc.encOutValid (encPins true 0x16C6C false) = true ∧
      (stateOf (step { fullEnc with host := [.encEdge (encPins true 0x16C6C false)] })).isSome = true) ∧
    (fullDec.decOutValid (decPins true 0 false) = true ∧
      (stateOf (step { fullDec with host := [.decEdge (decPins true 0 false)] })).isSome = true) := by decide

theorem witness_NoTransfer :
    ((true && fullEnc.encInReady (encPins true 0x16C6C false)) = false ∧
      (fullEnc.encOutValid (encPins true 0x16C6C false) && false) = false ∧
      (stateOf (step { fullEnc with host := [.encEdge (encPins true 0x16C6C false)] })).isSome = true) ∧
    ((true && fullDec.decInReady (decPins true 0 false)) = false ∧
      (fullDec.decOutValid (decPins true 0 false) && false) = false ∧
      (stateOf (step { fullDec with host := [.decEdge (decPins true 0 false)] })).isSome = true) := by decide

theorem witness_FullUnit :
    (encode (.enc1 0x41 0) = .eib 0x04100#17 ∧ fullEnc.enc.live = true ∧ fullEnc.params.latEnc ≠ 0 ∧
      fullEnc.params.depthEnc ≤ fullEnc.enc.queue.length) ∧
    (encode (.dec0 true 0 0 0) = .dib 0x4000000#27 ∧ fullDec.dec.live = true ∧ fullDec.params.latDec ≠ 0 ∧
      fullDec.params.depthDec ≤ fullDec.dec.queue.length) := by decide

theorem witness_HostViolations : comb.params.latEnc = 0 ∧ comb.params.latDec = 0 ∧
    State.reset.params.latEnc ≠ 0 ∧ State.reset.params.latDec ≠ 0 := by decide

theorem witness_StepUsesOneEvent : State.reset.host = [] ∧ (stateOf (step State.reset)).isSome = true := by decide

/-- Two different states that agree on one unit, and both orders of an encoder event and a decoder event. -/
theorem witness_UnitsAreIndependent :
    (isEncEvent (.encEdge (encPins true 0x14142 true)) = true ∧ fullDec.enc = State.reset.enc ∧ fullDec ≠ State.reset ∧
      fullDec.params = State.reset.params) ∧
    (isEncEvent (.decEdge (decPins true 0x14142 true)) = false ∧ fullEnc.dec = State.reset.dec ∧
      fullEnc.ff = State.reset.ff ∧ fullEnc ≠ State.reset) ∧
    (stateOf (Host.Core.run Sys2Proof.core 2 { State.reset with
      host := [.encEdge (encPins true 0x14142 true), .decEdge (decPins true 0x7424238 true)] })).isSome = true := by
  decide

theorem witness_FrameFlagsChange :
    (stateOf (step { State.reset with host := [.decEdge (decPins true 0x3474757 true)] })).map (fun t => t.ff) =
      some 0b100#3 ∧ State.reset.ff ≠ 0b100#3 := by decide

theorem witness_InvariantHoldsAfterReset : Params.legal ⟨3, 0, 4, 0⟩ = true := by decide

theorem witness_StepKeepsTheInvariant :
    fullEnc.Inv ∧ fullDec.Inv ∧
      (stateOf (step { fullEnc with host := [.encEdge (encPins true 0x16C6C true)] })).isSome = true ∧
      (stateOf (step { fullDec with host := [.decEdge (decPins true 0x5420000 true)] })).isSome = true :=
  ⟨fullEnc_inv, fullDec_inv, by decide, by decide⟩

/-- A run that takes one beat of each unit and hands it out: for RunDeliversAcceptedBeatsInOrder, EncoderOutputStaysInAlphabet,
EncodedMessageArrives and DecodedMessageArrives. -/
theorem witness_Runs :
    ∃ t, Reached Params.reference [.encEdge (encPins true 0x14142 true), .encEdge (encPins false 0 true),
        .decEdge (decPins true 0x7424238 true), .decEdge (decPins false 0 true)] 4 t ∧
      Params.reference.legal = true ∧
      t.enc.accepted = encWords (encodeBeats [0x41, 0x42]) ∧ t.enc.queue = [] ∧ t.enc.delivered ≠ [] ∧
      t.dec.accepted = decWords (decodeBeats [0x42, 0x42, 0x38]) ∧ t.dec.queue = [] ∧ t.dec.delivered ≠ [] :=
  ⟨_, rfl, by decide, by decide, by decide, by decide, by decide, by decide, by decide⟩

theorem witness_Flowing :
    (fullEnc.params.legal = true ∧ fullEnc.params.latEnc ≠ 0 ∧ fullEnc.enc.Flowing fullEnc.params.latEnc ∧
      fullEnc.enc.live = true) ∧
    (fullDec.params.legal = true ∧ fullDec.params.latDec ≠ 0 ∧ fullDec.dec.Flowing fullDec.params.latDec ∧
      fullDec.dec.live = true) :=
  ⟨⟨by decide, by decide, ⟨fullEnc_inv.enc_bounded.ages_fall, by decide⟩, rfl⟩,
    ⟨by decide, by decide, ⟨fullDec_inv.dec_bounded.ages_fall, by decide⟩, rfl⟩⟩

theorem witness_HeldBeatsLeave :
    ([encPins true 0x16C6C true].length = fullEnc.params.latEnc ∧
      ∀ p ∈ [encPins true 0x16C6C true], p.rst = false ∧ p.outReady = true) ∧
    ([decPins true 0x5420000 true].length = fullDec.params.latDec ∧
      ∀ p ∈ [decPins true 0x5420000 true], p.rst = false ∧ p.outReady = true) := by decide

end Sys2Proof.Tests
end

section
/-!
What one event of the outside can do, and what it leaves unchanged: the parameters, the other unit and the host's remaining
events.
-/

namespace Sys2Proof.Machine

/-! ### What an encoder event and a decoder event leave unchanged -/

theorem acceptEnc_frame {i : Eib} {o : Eob} {s t : State} (h : acceptEnc i o s = .next t) :
    t.params = s.params ∧ t.dec = s.dec ∧ t.ff = s.ff ∧ t.host = s.host := by
  obtain ⟨-, ⟨-, rfl⟩ | ⟨-, rfl⟩⟩ := acceptEnc_cases h <;> exact ⟨rfl, rfl, rfl, rfl⟩

theorem acceptDec_frame {i : Dib} {r : Dob × FrameFlags} {s t : State} (h : acceptDec i r s = .next t) :
    t.params = s.params ∧ t.enc = s.enc ∧ t.host = s.host := by
  obtain ⟨-, ⟨-, rfl⟩ | ⟨-, rfl⟩⟩ := acceptDec_cases h <;> exact ⟨rfl, rfl, rfl⟩

theorem encEdge_frame {p : Pins Eib} {s t : State} (h : encEdge p s = .next t) :
    t.params = s.params ∧ t.dec = s.dec ∧ t.ff = s.ff ∧ t.host = s.host := by
  obtain ⟨-, rfl⟩ | ⟨-, -, -, -, hexec⟩ | ⟨-, -, -, rfl⟩ := encEdge_cases h
  · exact ⟨rfl, rfl, rfl, rfl⟩
  · rw [exec_decode_eib] at hexec
    simpa using acceptEnc_frame hexec
  · exact ⟨rfl, rfl, rfl, rfl⟩

theorem decEdge_frame {p : Pins Dib} {s t : State} (h : decEdge p s = .next t) :
    t.params = s.params ∧ t.enc = s.enc ∧ t.host = s.host := by
  obtain ⟨-, rfl⟩ | ⟨-, -, -, -, hexec⟩ | ⟨-, -, -, rfl⟩ := decEdge_cases h
  · exact ⟨rfl, rfl, rfl⟩
  · rw [exec_decode_dib] at hexec
    simpa using acceptDec_frame hexec
  · exact ⟨rfl, rfl, rfl⟩

/-! ### One event, one step -/

/-- Everything an event can do that gives a next state: an edge of one unit, or the gating of one (R100, R103, R108). -/
theorem applyEvent_cases {ev : HostEvent} {s t : State} (h : applyEvent ev s = .next t) :
    (∃ p, (ev = .encEdge p ∨ (ev = .encLoop p ∧ s.params.latEnc ≠ 0)) ∧ encEdge p s = .next t) ∨
      (∃ p, (ev = .decEdge p ∨ (ev = .decLoop p ∧ s.params.latDec ≠ 0)) ∧ decEdge p s = .next t) ∨
      (ev = .encGate ∧ t = { s with enc := s.enc.gate }) ∨
      (ev = .decGate ∧ t = { s with dec := s.dec.gate }) := by
  cases ev with
  | encEdge p => exact .inl ⟨p, .inl rfl, h⟩
  | decEdge p => exact .inr (.inl ⟨p, .inl rfl, h⟩)
  | encUndriven => cases h
  | decUndriven => cases h
  | encLoop p =>
    simp only [applyEvent] at h
    split at h
    · cases h
    · next hlat => exact .inl ⟨p, .inr ⟨rfl, hlat⟩, h⟩
  | decLoop p =>
    simp only [applyEvent] at h
    split at h
    · cases h
    · next hlat => exact .inr (.inl ⟨p, .inr ⟨rfl, hlat⟩, h⟩)
  | encGate => cases h; exact .inr (.inr (.inl ⟨rfl, rfl⟩))
  | decGate => cases h; exact .inr (.inr (.inr ⟨rfl, rfl⟩))

theorem applyEvent_keeps_params_host {ev : HostEvent} {s t : State} (h : applyEvent ev s = .next t) :
    t.params = s.params ∧ t.host = s.host := by
  obtain ⟨p, -, hedge⟩ | ⟨p, -, hedge⟩ | ⟨-, rfl⟩ | ⟨-, rfl⟩ := applyEvent_cases h
  · obtain ⟨hparams, -, -, hhost⟩ := encEdge_frame hedge
    exact ⟨hparams, hhost⟩
  · obtain ⟨hparams, -, hhost⟩ := decEdge_frame hedge
    exact ⟨hparams, hhost⟩
  · exact ⟨rfl, rfl⟩
  · exact ⟨rfl, rfl⟩

theorem step_of_host_nil {s : State} (h : s.host = []) : step s = .next s := by
  simp [step, h]

theorem step_of_host_cons {s : State} {ev : HostEvent} {rest : List HostEvent} (h : s.host = ev :: rest) :
    step s = applyEvent ev { s with host := rest } := by
  simp [step, h]

end Sys2Proof.Machine

open Sys2Proof.Machine

/-- Settles O50: the host's list is taken apart by `step` alone; no event touches the parameters or what is left of the list. -/
theorem stepUsesOneEvent : Obligations.StepUsesOneEvent := by
  intro s
  refine ⟨step_of_host_nil, fun t ht => ?_⟩
  cases hs : s.host with
  | nil =>
    rw [step_of_host_nil hs] at ht
    cases ht
    exact ⟨rfl, hs⟩
  | cons ev rest =>
    rw [step_of_host_cons hs] at ht
    exact applyEvent_keeps_params_host ht

end

section
/-!
The equations of one edge and of the taking of a beat, and the locality of a unit: an event of one unit reads and writes nothing
of the other (R14).
-/

namespace Sys2Proof

/-- No bit of an operation is lost in its beat word. -/
@[simp] theorem decode_encode (i : Instr) : decode (encode i) = i := by
  cases i with
  | enc1 b0 x1 => simp [encode, decode, decodeEib]
  | enc2 b0 b1 => simp [encode, decode, decodeEib]
  | dec0 last x0 x1 x2 => simp [encode, decode, decodeDib]
  | dec1 last ch0 x1 x2 => simp [encode, decode, decodeDib]
  | dec2 last ch0 ch1 x2 => simp [encode, decode, decodeDib]
  | dec3 last ch0 ch1 ch2 => simp [encode, decode, decodeDib]

/-- Legal parameters give no storage to a unit of latency 0 (R5). -/
theorem legalDepth_latency_ne_zero {lat depth : Nat} (h : legalDepth lat depth = true) (hd : 0 < depth) : lat ≠ 0 := by
  rintro rfl
  simp only [legalDepth, if_true, decide_eq_true_eq] at h
  omega

theorem Params.legal_iff (p : Params) :
    p.legal = true ↔ legalDepth p.latEnc p.depthEnc = true ∧ legalDepth p.latDec p.depthDec = true := by
  simp [Params.legal]

namespace Machine

open Sys2Proof.Claims

/-! ### Room for a beat -/

section Unit

variable {α β : Type} {lat depth : Nat}

theorem hasRoom_iff {u : StreamUnit α β} :
    u.hasRoom lat depth = true ↔ lat = 0 ∨ u.queue.length < depth := by
  simp [StreamUnit.hasRoom]

theorem hasRoom_eq_false {u : StreamUnit α β} (hlat : lat ≠ 0) (hfull : depth ≤ u.queue.length) :
    u.hasRoom lat depth = false := by
  rw [← Bool.not_eq_true, hasRoom_iff]
  omega

/-! ### The ports, and the bound, of an empty unit -/

theorem outValid_comb {p : Pins α} (hp : p.rst = false) (u : StreamUnit α β) : u.outValid 0 p = p.inValid := by
  simp [StreamUnit.outValid, hp]

theorem inReady_comb {p : Pins α} (hp : p.rst = false) (u : StreamUnit α β) :
    u.inReady 0 depth p = p.outReady := by
  simp [StreamUnit.inReady, hp]

theorem inReady_of_room {p : Pins α} {u : StreamUnit α β} (hlat : lat ≠ 0) (hp : p.rst = false)
    (hroom : u.queue.length < depth) : u.inReady lat depth p = true := by
  simp [StreamUnit.inReady, hlat, hp, hroom]

theorem outValid_of_empty {p : Pins α} {u : StreamUnit α β} (hlat : lat ≠ 0) (hq : u.queue = []) :
    u.outValid lat p = false := by
  simp [StreamUnit.outValid, hlat, hq]

/-- The ports of a unit just after reset (R26), for a legal latency and depth. -/
theorem empty_ports {p : Pins α} (hlegal : legalDepth lat depth = true) (hp : p.rst = false) :
    (0 < depth → (StreamUnit.empty α β).inReady lat depth p = true ∧ (StreamUnit.empty α β).outValid lat p = false) ∧
      (lat = 0 → (StreamUnit.empty α β).inReady lat depth p = p.outReady ∧
        (StreamUnit.empty α β).outValid lat p = p.inValid) := by
  constructor
  · intro hd
    have hlat := legalDepth_latency_ne_zero hlegal hd
    exact ⟨inReady_of_room hlat hp hd, outValid_of_empty hlat rfl⟩
  · rintro rfl
    exact ⟨inReady_comb hp _, outValid_comb hp _⟩

theorem empty_bounded (lat depth : Nat) : (StreamUnit.empty α β).Bounded lat depth where
  depth_bound := Nat.zero_le depth
  comb_empty _ := rfl
  ages_fall := List.Pairwise.nil

end Unit

/-! ### What taking a beat leaves -/

theorem tookEnc_eq_accept (i : Eib) (o : Eob) (s : State) :
    tookEnc i o s = { s with enc := s.enc.accept s.params.latEnc i o } := by
  unfold tookEnc StreamUnit.accept
  split <;> rfl

theorem tookDec_eq_accept (i : Dib) (o : Dob) (ff : FrameFlags) (s : State) :
    tookDec i o ff s = { s with dec := s.dec.accept s.params.latDec i o, ff := ff } := by
  unfold tookDec StreamUnit.accept
  split <;> rfl

/-! ### One edge, case by case -/

section Edge

variable {s : State}

theorem encEdge_reset {p : Pins Eib} (hp : p.rst = true) : encEdge p s = .next { s with enc := s.enc.reset } :=
  if_pos hp

theorem encEdge_taken {p : Pins Eib} (hp : p.rst = false) (hl : s.enc.live = true) (hv : p.inValid = true)
    (hr : s.encInReady p = true) : encEdge p s = exec (decode (.eib p.inBeat)) (s.encDrain p) := by
  simp [encEdge, hp, hl, hv, hr]

theorem encEdge_not_taken {p : Pins Eib} (hp : p.rst = false) (hl : s.enc.live = true)
    (hi : (p.inValid && s.encInReady p) = false) : encEdge p s = .next (s.encDrain p) := by
  simp [encEdge, hp, hl, hi]

theorem decEdge_reset {p : Pins Dib} (hp : p.rst = true) :
    decEdge p s = .next { s with dec := s.dec.reset, ff := 0#3 } :=
  if_pos hp

theorem decEdge_taken {p : Pins Dib} (hp : p.rst = false) (hl : s.dec.live = true) (hv : p.inValid = true)
    (hr : s.decInReady p = true) : decEdge p s = exec (decode (.dib p.inBeat)) (s.decDrain p) := by
  simp [decEdge, hp, hl, hv, hr]

theorem decEdge_not_taken {p : Pins Dib} (hp : p.rst = false) (hl : s.dec.live = true)
    (hi : (p.inValid && s.decInReady p) = false) : decEdge p s = .next (s.decDrain p) := by
  simp [decEdge, hp, hl, hi]

theorem applyEvent_encLoop (hlat : s.params.latEnc ≠ 0) (p : Pins Eib) : applyEvent (.encLoop p) s = encEdge p s :=
  if_neg hlat

theorem applyEvent_decLoop (hlat : s.params.latDec ≠ 0) (p : Pins Dib) : applyEvent (.decLoop p) s = decEdge p s :=
  if_neg hlat

/-- `FF` stays at an edge of the decoder, or the edge is a reset, or it takes a beat (R20). -/
theorem decEdge_ff_cases {p : Pins Dib} {t : State} (h : decEdge p s = .next t) :
    t.ff = s.ff ∨ (p.rst = true ∧ t.ff = 0#3) ∨
      (p.rst = false ∧ p.inValid = true ∧ s.decInReady p = true ∧ t.ff = (decBeat s.ff p.inBeat).2 ∧
        t.dec.accepted = s.dec.accepted ++ [p.inBeat]) := by
  obtain ⟨hp, rfl⟩ | ⟨hp, -, hv, hr, hexec⟩ | ⟨-, -, -, rfl⟩ := decEdge_cases h
  · exact .inr (.inl ⟨hp, rfl⟩)
  · rw [exec_decode_dib] at hexec
    obtain ⟨-, ⟨-, rfl⟩ | ⟨-, rfl⟩⟩ := acceptDec_cases hexec
    · exact .inr (.inr ⟨hp, hv, hr, rfl, by simp⟩)
    · exact .inl rfl
  · exact .inl rfl

end Edge

/-! ### Locality of the encoder: the decoder, `FF` and the host's later events may be anything -/

section EncoderLocal

variable {s t : State} (d : StreamUnit Dib Dob) (f : FrameFlags) (l : List HostEvent)

theorem acceptEnc_local {i : Eib} {o : Eob} (h : acceptEnc i o s = .next t) :
    acceptEnc i o { s with dec := d, ff := f, host := l } = .next { t with dec := d, ff := f, host := l } := by
  obtain ⟨hl, ⟨hr, rfl⟩ | ⟨hr, rfl⟩⟩ := acceptEnc_cases h
  · exact acceptEnc_room hl hr
  · exact acceptEnc_full hl hr

theorem encEdge_local {p : Pins Eib} (h : encEdge p s = .next t) :
    encEdge p { s with dec := d, ff := f, host := l } = .next { t with dec := d, ff := f, host := l } := by
  obtain ⟨hp, rfl⟩ | ⟨hp, hl, hv, hr, hexec⟩ | ⟨hp, hl, hi, rfl⟩ := encEdge_cases h
  · exact encEdge_reset hp
  · rw [exec_decode_eib] at hexec
    refine (encEdge_taken (s := { s with dec := d, ff := f, host := l }) hp hl hv hr).trans ?_
    rw [exec_decode_eib]
    exact acceptEnc_local d f l hexec
  · exact encEdge_not_taken hp hl hi

/-- An encoder event that gives a next state is an edge of the encoder, or its gating. -/
theorem encEvent_cases {ev : HostEvent} (hev : isEncEvent ev = true) (h : applyEvent ev s = .next t) :
    (∃ p, (ev = .encEdge p ∨ (ev = .encLoop p ∧ s.params.latEnc ≠ 0)) ∧ encEdge p s = .next t) ∨
      (ev = .encGate ∧ t = { s with enc := s.enc.gate }) := by
  obtain hedge | ⟨p, rfl | ⟨rfl, -⟩, -⟩ | hgate | ⟨rfl, -⟩ := applyEvent_cases h
  · exact .inl hedge
  · cases hev
  · cases hev
  · exact .inr hgate
  · cases hev

theorem encEvent_frame {ev : HostEvent} (hev : isEncEvent ev = true) (h : applyEvent ev s = .next t) :
    t.params = s.params ∧ t.dec = s.dec ∧ t.ff = s.ff ∧ t.host = s.host := by
  obtain ⟨p, -, hedge⟩ | ⟨-, rfl⟩ := encEvent_cases hev h
  · exact encEdge_frame hedge
  · exact ⟨rfl, rfl, rfl, rfl⟩

theorem encEvent_local {ev : HostEvent} (hev : isEncEvent ev = true) (h : applyEvent ev s = .next t) :
    applyEvent ev { s with dec := d, ff := f, host := l } = .next { t with dec := d, ff := f, host := l } := by
  obtain ⟨p, rfl | ⟨rfl, hlat⟩, hedge⟩ | ⟨rfl, rfl⟩ := encEvent_cases hev h
  · exact encEdge_local d f l hedge
  · simpa [applyEvent_encLoop, hlat] using encEdge_local d f l hedge
  · rfl

end EncoderLocal

/-! ### Locality of the decoder: the encoder and the host's later events may be anything -/

section DecoderLocal

variable {s t : State} (e : StreamUnit Eib Eob) (l : List HostEvent)

theorem acceptDec_local {i : Dib} {r : Dob × FrameFlags} (h : acceptDec i r s = .next t) :
    acceptDec i r { s with enc := e, host := l } = .next { t with enc := e, host := l } := by
  obtain ⟨hl, ⟨hr, rfl⟩ | ⟨hr, rfl⟩⟩ := acceptDec_cases h
  · exact acceptDec_room hl hr
  · exact acceptDec_full hl hr

theorem decEdge_local {p : Pins Dib} (h : decEdge p s = .next t) :
    decEdge p { s with enc := e, host := l } = .next { t with enc := e, host := l } := by
  obtain ⟨hp, rfl⟩ | ⟨hp, hl, hv, hr, hexec⟩ | ⟨hp, hl, hi, rfl⟩ := decEdge_cases h
  · exact decEdge_reset hp
  · rw [exec_decode_dib] at hexec
    refine (decEdge_taken (s := { s with enc := e, host := l }) hp hl hv hr).trans ?_
    rw [exec_decode_dib]
    exact acceptDec_local e l hexec
  · exact decEdge_not_taken hp hl hi

/-- A decoder event that gives a next state is an edge of the decoder, or its gating. -/
theorem decEvent_cases {ev : HostEvent} (hev : isEncEvent ev = false) (h : applyEvent ev s = .next t) :
    (∃ p, (ev = .decEdge p ∨ (ev = .decLoop p ∧ s.params.latDec ≠ 0)) ∧ decEdge p s = .next t) ∨
      (ev = .decGate ∧ t = { s with dec := s.dec.gate }) := by
  obtain ⟨p, rfl | ⟨rfl, -⟩, -⟩ | hedge | ⟨rfl, -⟩ | hgate := applyEvent_cases h
  · cases hev
  · cases hev
  · exact .inl hedge
  · cases hev
  · exact .inr hgate

theorem decEvent_frame {ev : HostEvent} (hev : isEncEvent ev = false) (h : applyEvent ev s = .next t) :
    t.params = s.params ∧ t.enc = s.enc ∧ t.host = s.host := by
  obtain ⟨p, -, hedge⟩ | ⟨-, rfl⟩ := decEvent_cases hev h
  · exact decEdge_frame hedge
  · exact ⟨rfl, rfl, rfl⟩

theorem decEvent_local {ev : HostEvent} (hev : isEncEvent ev = false) (h : applyEvent ev s = .next t) :
    applyEvent ev { s with enc := e, host := l } = .next { t with enc := e, host := l } := by
  obtain ⟨p, rfl | ⟨rfl, hlat⟩, hedge⟩ | ⟨rfl, rfl⟩ := decEvent_cases hev h
  · exact decEdge_local e l hedge
  · simpa [applyEvent_decLoop, hlat] using decEdge_local e l hedge
  · rfl

end DecoderLocal

/-! ### Two events one after the other -/

section TwoEvents

variable {s m t : State} {ev ev' : HostEvent}

/-- No event reads or writes what the host has still to do. -/
theorem applyEvent_withHost (h : applyEvent ev s = .next t) (l : List HostEvent) :
    applyEvent ev { s with host := l } = .next { t with host := l } := by
  cases hev : isEncEvent ev with
  | true =>
    obtain ⟨-, hdec, hff, -⟩ := encEvent_frame hev h
    simpa only [hdec, hff] using encEvent_local s.dec s.ff l hev h
  | false =>
    obtain ⟨-, henc, -⟩ := decEvent_frame hev h
    simpa only [henc] using decEvent_local s.enc l hev h

/-- An encoder event and a decoder event commute (R14). -/
theorem applyEvent_comm (hev : isEncEvent ev = true) (hev' : isEncEvent ev' = false)
    (hm : applyEvent ev s = .next m) (ht : applyEvent ev' m = .next t) :
    ∃ m', applyEvent ev' s = .next m' ∧ applyEvent ev m' = .next t := by
  cases s
  cases m
  cases t
  obtain ⟨rfl, rfl, rfl, rfl⟩ := encEvent_frame hev hm
  obtain ⟨rfl, rfl, rfl⟩ := decEvent_frame hev' ht
  exact ⟨_, decEvent_local _ _ hev' ht, encEvent_local _ _ _ hev hm⟩

theorem core_run_succ_iff {M : Host.Core} {k : Nat} {s t : M.State} :
    M.run (k + 1) s = .next t ↔ ∃ m, M.step s = .next m ∧ M.run k m = .next t := by
  rw [Host.Core.run]
  cases M.step s <;> simp

/-- Two steps, taken apart. -/
theorem run_two_iff : Host.Core.run Sys2Proof.core 2 s = .next t ↔ ∃ m, step s = .next m ∧ step m = .next t := by
  refine core_run_succ_iff.trans (exists_congr fun m => and_congr_right fun _ => core_run_succ_iff.trans ?_)
  simp [Host.Core.run, Sys2Proof.core]

/-- Two steps apply the next two events, whatever comes after them. -/
theorem run_two_events_iff {rest : List HostEvent} :
    Host.Core.run Sys2Proof.core 2 { s with host := ev :: ev' :: rest } = .next t ↔
      ∃ m, applyEvent ev { s with host := rest } = .next m ∧ applyEvent ev' m = .next t := by
  rw [run_two_iff]
  constructor
  · rintro ⟨m, hm, ht⟩
    rw [step_of_host_cons rfl] at hm
    obtain ⟨-, hhost⟩ := applyEvent_keeps_params_host hm
    rw [step_of_host_cons hhost] at ht
    exact ⟨_, applyEvent_withHost hm rest, ht⟩
  · rintro ⟨m, hm, ht⟩
    obtain ⟨-, rfl⟩ := applyEvent_keeps_params_host hm
    exact ⟨_, applyEvent_withHost hm _, ht⟩

end TwoEvents

end Machine

end Sys2Proof

end

section
/-!
Runs of decoder beats: a run may be cut anywhere, and a beat with `last = 1` leaves clear frame flags (R21, R36).
-/

namespace Sys2Proof.Machine

/-- Every decoder beat ends in the shared tail, with its own `last` (R67). -/
theorem decBeat_eq_finishBeat (ff : FrameFlags) (w : Dib) :
    ∃ bf bytes, decBeat ff w = finishBeat (dibLast w) bf bytes ff := by
  unfold decBeat
  split_ifs <;> exact ⟨_, _, rfl⟩

theorem decBeat_ff_of_last {w : Dib} (h : dibLast w = true) (ff : FrameFlags) : (decBeat ff w).2 = 0#3 := by
  obtain ⟨bf, bytes, hbeat⟩ := decBeat_eq_finishBeat ff w
  rw [hbeat, finishBeat_ff, h, leaveError_last]

theorem decRun_append (ff : FrameFlags) (ws vs : List Dib) :
    decRun ff (ws ++ vs) =
      ((decRun ff ws).1 ++ (decRun (decRun ff ws).2 vs).1, (decRun (decRun ff ws).2 vs).2) := by
  induction ws generalizing ff with
  | nil => rfl
  | cons w ws ih => simp [decRun, ih]

theorem decRun_ff_of_last {w : Dib} (h : dibLast w = true) (ff : FrameFlags) (ws : List Dib) :
    (decRun ff (ws ++ [w])).2 = 0#3 := by
  rw [decRun_append]
  exact decBeat_ff_of_last h _

end Sys2Proof.Machine

end

section
/-!
The statements about the state and what changes it (10_state.md).
-/

open Sys2Proof Sys2Proof.Machine Sys2Proof.Claims

/-- Settles O15: `tookEnc` and `tookDec` are the taking of a beat by a unit with room. -/
theorem acceptedBeatGivesItsBeatFunction : Obligations.AcceptedBeatGivesItsBeatFunction := by
  constructor
  · rintro w s ⟨hlive, hroom⟩
    rw [exec_decode_eib, acceptEnc_room hlive (hasRoom_iff.2 hroom), tookEnc_eq_accept]
  · rintro w s ⟨hlive, hroom⟩
    rw [exec_decode_dib, acceptDec_room hlive (hasRoom_iff.2 hroom), tookDec_eq_accept]

/-- Settles O35: a run is cut after its last beat, where `FF` is clear. -/
theorem framesDoNotInterfere : Obligations.FramesDoNotInterfere := by
  intro ff ws w later hlast
  have hcut : ws ++ w :: later = (ws ++ [w]) ++ later := by simp
  rw [hcut, decRun_append ff (ws ++ [w]), decRun_ff_of_last hlast]

/-- Settles O38, from the ports of an empty unit, which both units are after reset. -/
theorem resetLeavesEmptyUnits : Obligations.ResetLeavesEmptyUnits := by
  intro p hp
  obtain ⟨henc, hdec⟩ := p.legal_iff.1 hp
  exact ⟨_, rfl, rfl, rfl, rfl, rfl, fun _ hrst => empty_ports henc hrst, fun _ hrst => empty_ports hdec hrst⟩

/-- Settles O51: an event does the same whatever the other unit is, and commutation is two uses of that. -/
theorem unitsAreIndependent : Obligations.UnitsAreIndependent := by
  constructor
  · intro s s' t ev rest rest' hs hs' hparams hstep
    rw [step_of_host_cons hs] at hstep
    rw [step_of_host_cons hs']
    constructor
    · intro hev henc
      obtain ⟨-, hdec, hff, -⟩ := encEvent_frame hev hstep
      have hlocal := encEvent_local s'.dec s'.ff rest' hev hstep
      simp only [hparams, henc] at hlocal
      exact ⟨hdec, hff, _, hlocal, rfl⟩
    · intro hev hdec hff
      obtain ⟨-, henc, -⟩ := decEvent_frame hev hstep
      have hlocal := decEvent_local s'.enc rest' hev hstep
      simp only [hparams, hdec, hff] at hlocal
      exact ⟨henc, _, hlocal, rfl, rfl⟩
  · intro s t ee ed rest hee hed hrun
    obtain ⟨m, hm, ht⟩ := run_two_events_iff.1 hrun
    exact run_two_events_iff.2 (applyEvent_comm hee hed hm ht)

/-- Settles O52: no encoder event writes `FF`, and a decoder edge writes it at a reset or for the beat it takes. -/
theorem frameFlagsChangeOnlyByBeatOrReset : Obligations.FrameFlagsChangeOnlyByBeatOrReset := by
  intro s t hstep hff
  cases hs : s.host with
  | nil =>
    rw [step_of_host_nil hs] at hstep
    cases hstep
    exact absurd rfl hff
  | cons ev rest =>
    rw [step_of_host_cons hs] at hstep
    obtain ⟨p, -, hedge⟩ | ⟨p, hev, hedge⟩ | ⟨-, rfl⟩ | ⟨-, rfl⟩ := applyEvent_cases hstep
    · obtain ⟨-, -, hsame, -⟩ := encEdge_frame hedge
      exact absurd hsame hff
    · obtain hsame | hchange := decEdge_ff_cases hedge
      · exact absurd hsame hff
      · exact ⟨p, by simpa using hev.imp_right And.left, hchange⟩
    · exact absurd rfl hff
    · exact absurd rfl hff

/-- Settles O36, from the case of an edge that takes a beat. -/
theorem stepRunsTheOfferedBeat : Obligations.StepRunsTheOfferedBeat := by
  constructor
  · intro s p rest hs hp hl hv hr
    rw [step_of_host_cons hs]
    exact encEdge_taken hp hl hv hr
  · intro s p rest hs hp hl hv hr
    rw [step_of_host_cons hs]
    exact decEdge_taken hp hl hv hr

/-- Settles O47: an operation is the beat of its word, which a full unit leaves waiting. -/
theorem fullUnitLeavesTheBeatWaiting : Obligations.FullUnitLeavesTheBeatWaiting := by
  intro i s
  constructor
  · intro w hw hlive hlat hfull
    rw [← decode_encode i, hw, exec_decode_eib, acceptEnc_full hlive (hasRoom_eq_false hlat hfull)]
  · intro w hw hlive hlat hfull
    rw [← decode_encode i, hw, exec_decode_dib, acceptDec_full hlive (hasRoom_eq_false hlat hfull)]

/-- Settles O53: both units are empty after reset, and an empty unit has moved and holds nothing. -/
theorem invariantHoldsAfterReset : Obligations.InvariantHoldsAfterReset := fun p hp =>
  { legal := hp
    enc_bounded := empty_bounded p.latEnc p.depthEnc
    dec_bounded := empty_bounded p.latDec p.depthDec
    enc_stream := rfl
    dec_stream := rfl }

end

section
/-!
What keeps the storage bound and the stream of a unit, and so the invariant: an output transfer and a tick at each edge, then the
taking of a beat (R17, R19, R35, R36, R103).
-/

namespace Sys2Proof.Machine

/-! ### One unit -/

section Unit

variable {α β : Type} {lat depth : Nat} {u v : StreamUnit α β}

/-- A unit stays within its bound when it loses beats, from whichever end. -/
theorem StreamUnit.Bounded.of_sublist (h : u.Bounded lat depth) (hv : v.queue.Sublist u.queue) :
    v.Bounded lat depth where
  depth_bound := hv.length_le.trans h.depth_bound
  comb_empty hlat := List.sublist_nil.1 (h.comb_empty hlat ▸ hv)
  ages_fall := h.ages_fall.sublist hv

theorem outTransfer_queue_sublist (lat : Nat) (comb free : β) (p : Pins α) (u : StreamUnit α β) :
    (u.outTransfer lat comb free p).queue.Sublist u.queue := by
  obtain ⟨h, -⟩ | ⟨-, -, -, b, q, hq, -, h⟩ := outTransfer_cases lat comb free p u
  · rw [h]
  · simp [h, hq]

theorem outTransfer_of_no_transfer {comb free : β} {p : Pins α}
    (h : (u.outValid lat p && p.outReady) = false) : u.outTransfer lat comb free p = u := by
  obtain ⟨hsame, -⟩ | ⟨-, hready, hvalid, -⟩ := outTransfer_cases lat comb free p u
  · exact hsame
  · simp [hvalid, hready] at h

theorem tick_bounded (h : u.Bounded lat depth) : u.tick.Bounded lat depth where
  depth_bound := by simpa using h.depth_bound
  comb_empty hlat := by simpa using h.comb_empty hlat
  ages_fall := by simpa [agesFall, List.pairwise_map] using h.ages_fall

theorem tick_ages_pos (u : StreamUnit α β) : ∀ b ∈ u.tick.queue, 0 < b.age := by
  simp

/-- A new beat has age 0, so the ages fall only if every beat already held is older: this is where one input transfer per edge
is needed (R34, R105). -/
theorem accept_bounded (h : u.Bounded lat depth) (hroom : u.hasRoom lat depth = true)
    (hage : ∀ b ∈ u.queue, 0 < b.age) (i : α) (o : β) : (u.accept lat i o).Bounded lat depth := by
  by_cases hlat : lat = 0
  · subst hlat
    exact h.of_sublist (List.Sublist.refl _)
  · have hq := StreamUnit.accept_queue u lat i o hlat
    have hlen : u.queue.length < depth := (hasRoom_iff.1 hroom).resolve_left hlat
    refine ⟨?_, fun h0 => absurd h0 hlat, ?_⟩
    · simpa [hq] using hlen
    · rw [hq]
      exact List.pairwise_append.2 ⟨h.ages_fall, List.pairwise_singleton _ _, by simpa using hage⟩

/-- Taking a beat puts its output word at the end of what was delivered and is held. -/
theorem accept_stream (hcomb : lat = 0 → u.queue = []) (i : α) (o : β) :
    (u.accept lat i o).delivered ++ (u.accept lat i o).held = u.delivered ++ u.held ++ [o] := by
  by_cases hlat : lat = 0
  · subst hlat
    simp [StreamUnit.held, hcomb rfl]
  · rw [StreamUnit.accept_delivered u lat i o hlat, accept_held hlat, List.append_assoc]

end Unit

/-! ### One edge -/

section Edge

variable {s t : State}

/-- With no beat across either interface and no reset, the unit only grows older (R35). -/
theorem encEdge_no_transfer {p : Pins Eib} (hp : p.rst = false) (hin : (p.inValid && s.encInReady p) = false)
    (hout : (s.encOutValid p && p.outReady) = false) (ht : encEdge p s = .next t) :
    t = { s with enc := s.enc.tick } := by
  obtain ⟨hrst, -⟩ | ⟨-, -, hvalid, hready, -⟩ | ⟨-, -, -, rfl⟩ := encEdge_cases ht
  · simp [hp] at hrst
  · simp [hvalid, hready] at hin
  · rw [State.encDrain, outTransfer_of_no_transfer hout]

/-- The same for the decoder. -/
theorem decEdge_no_transfer {p : Pins Dib} (hp : p.rst = false) (hin : (p.inValid && s.decInReady p) = false)
    (hout : (s.decOutValid p && p.outReady) = false) (ht : decEdge p s = .next t) :
    t = { s with dec := s.dec.tick } := by
  obtain ⟨hrst, -⟩ | ⟨-, -, hvalid, hready, -⟩ | ⟨-, -, -, rfl⟩ := decEdge_cases ht
  · simp [hp] at hrst
  · simp [hvalid, hready] at hin
  · rw [State.decDrain, outTransfer_of_no_transfer hout]

theorem encDrain_inv (h : s.Inv) (p : Pins Eib) : (s.encDrain p).Inv :=
  { h with
    enc_bounded := tick_bounded (h.enc_bounded.of_sublist (outTransfer_queue_sublist ..))
    enc_stream := by
      rw [State.encDrain_accepted, ← h.enc_stream]
      simp [State.encDrain, outTransfer_stream] }

theorem decDrain_inv (h : s.Inv) (p : Pins Dib) : (s.decDrain p).Inv :=
  { h with
    dec_bounded := tick_bounded (h.dec_bounded.of_sublist (outTransfer_queue_sublist ..))
    dec_stream := by
      rw [State.decDrain_accepted, h.dec_stream]
      simp [State.decDrain, outTransfer_stream] }

theorem acceptEnc_inv {i : Eib} (h : s.Inv) (hage : ∀ b ∈ s.enc.queue, 0 < b.age)
    (ht : acceptEnc i (encBeat i) s = .next t) : t.Inv := by
  obtain ⟨-, ⟨hroom, rfl⟩ | ⟨-, rfl⟩⟩ := acceptEnc_cases ht
  · exact { h with
      enc_bounded := accept_bounded h.enc_bounded hroom hage i _
      enc_stream := by simp [accept_stream h.enc_bounded.comb_empty, h.enc_stream] }
  · exact h

theorem acceptDec_inv {i : Dib} (h : s.Inv) (hage : ∀ b ∈ s.dec.queue, 0 < b.age)
    (ht : acceptDec i (decBeat s.ff i) s = .next t) : t.Inv := by
  obtain ⟨-, ⟨hroom, rfl⟩ | ⟨-, rfl⟩⟩ := acceptDec_cases ht
  · exact { h with
      dec_bounded := accept_bounded h.dec_bounded hroom hage i _
      dec_stream := by
        simp [accept_stream h.dec_bounded.comb_empty, decRun_append, h.dec_stream, decRun] }
  · exact h

theorem encEdge_inv {p : Pins Eib} (h : s.Inv) (ht : encEdge p s = .next t) : t.Inv := by
  obtain ⟨-, rfl⟩ | ⟨-, -, -, -, hexec⟩ | ⟨-, -, -, rfl⟩ := encEdge_cases ht
  · exact { h with
      enc_bounded := h.enc_bounded.of_sublist (List.nil_sublist _)
      enc_stream := rfl }
  · rw [exec_decode_eib] at hexec
    exact acceptEnc_inv (encDrain_inv h p) (tick_ages_pos _) hexec
  · exact encDrain_inv h p

theorem decEdge_inv {p : Pins Dib} (h : s.Inv) (ht : decEdge p s = .next t) : t.Inv := by
  obtain ⟨-, rfl⟩ | ⟨-, -, -, -, hexec⟩ | ⟨-, -, -, rfl⟩ := decEdge_cases ht
  · exact { h with
      dec_bounded := h.dec_bounded.of_sublist (List.nil_sublist _)
      dec_stream := rfl }
  · rw [exec_decode_dib] at hexec
    exact acceptDec_inv (decDrain_inv h p) (tick_ages_pos _) hexec
  · exact decDrain_inv h p

theorem applyEvent_inv {ev : HostEvent} (h : s.Inv) (ht : applyEvent ev s = .next t) : t.Inv := by
  obtain ⟨p, -, hedge⟩ | ⟨p, -, hedge⟩ | ⟨-, rfl⟩ | ⟨-, rfl⟩ := applyEvent_cases ht
  · exact encEdge_inv h hedge
  · exact decEdge_inv h hedge
  · exact { h with enc_bounded := h.enc_bounded.of_sublist (List.Sublist.refl _) }
  · exact { h with dec_bounded := h.dec_bounded.of_sublist (List.Sublist.refl _) }

/-- The invariant says nothing of what the host has still to do. -/
theorem State.Inv.withHost (h : s.Inv) (l : List HostEvent) : ({ s with host := l } : State).Inv :=
  { h with }

theorem step_inv (h : s.Inv) (ht : step s = .next t) : t.Inv := by
  cases hs : s.host with
  | nil =>
    rw [step_of_host_nil hs] at ht
    cases ht
    exact h
  | cons ev rest =>
    rw [step_of_host_cons hs] at ht
    exact applyEvent_inv (h.withHost rest) ht

end Edge

/-! ### A run -/

/-- What every step keeps, every run keeps. -/
theorem core_run_keeps {M : Host.Core} {P : M.State → Prop} (hstep : ∀ s t, P s → M.step s = .next t → P t) {n : Nat}
    {s t : M.State} (hs : P s) (hrun : M.run n s = .next t) : P t := by
  induction n generalizing s with
  | zero => cases hrun; exact hs
  | succ n ih =>
    obtain ⟨m, hm, ht⟩ := core_run_succ_iff.1 hrun
    exact ih (hstep s m hs hm) ht

end Sys2Proof.Machine

namespace Sys2Proof.Claims

open Sys2Proof.Machine

/-- Every state a host can bring about from reset has the invariant. -/
theorem Reached.inv {p : Params} {evs : List HostEvent} {n : Nat} {t : State} (hp : p.legal = true)
    (h : Reached p evs n t) : t.Inv :=
  core_run_keeps (M := Sys2Proof.core) (fun _ _ => step_inv) ((invariantHoldsAfterReset p hp).withHost evs) h

end Sys2Proof.Claims

end

section
/-!
The statements about what a unit holds and moves (20_memory.md).
-/

open Sys2Proof Sys2Proof.Machine Sys2Proof.Claims

/-- Settles O54: at an edge a unit first drains and grows older, so that a beat it takes is the youngest, and its output is the
next of the stream. -/
theorem stepKeepsTheInvariant : Obligations.StepKeepsTheInvariant := fun _ _ => step_inv

/-- Settles O46: such an edge is a drain with nothing to drain, so the unit only grows older. -/
theorem noTransferMovesNothing : Obligations.NoTransferMovesNothing := by
  constructor
  · intro s t p rest hs hp hin hout hstep
    rw [step_of_host_cons hs] at hstep
    rw [encEdge_no_transfer (s := { s with host := rest }) hp hin hout hstep]
    exact ⟨tick_held _, rfl, rfl, rfl, rfl, rfl⟩
  · intro s t p rest hs hp hin hout hstep
    rw [step_of_host_cons hs] at hstep
    rw [decEdge_no_transfer (s := { s with host := rest }) hp hin hout hstep]
    exact ⟨tick_held _, rfl, rfl, rfl, rfl, rfl⟩

/-- Settles O55: in a reached state, what was accepted gives exactly what was delivered and then what is held. -/
theorem runDeliversAcceptedBeatsInOrder : Obligations.RunDeliversAcceptedBeatsInOrder := by
  intro p evs n t hp hreached
  have hinv := hreached.inv hp
  rw [← hinv.enc_stream, hinv.dec_stream]
  exact ⟨List.prefix_append _ _, List.prefix_append _ _⟩

end

section
/-!
A beat word and its operation determine each other: the operation by the control field, the control field by the mask of the
operation's row, the lanes as they stand in the word (R39, R41, R44, R45).
-/

namespace Sys2Proof

/-! ### The operation of each value of the control field -/

section Control

variable {v : Eib} {w : Dib}

theorem decodeEib_single (h : eibTwo v = false) : decodeEib v = .enc1 (eibB0 v) (eibB1 v) := by
  simp [decodeEib, h]

theorem decodeEib_pair (h : eibTwo v = true) : decodeEib v = .enc2 (eibB0 v) (eibB1 v) := by
  simp [decodeEib, h]

theorem decodeDib_none (h : dibCount w = 0#2) :
    decodeDib w = .dec0 (dibLast w) (dibCh0 w) (dibCh1 w) (dibCh2 w) := by
  simp [decodeDib, h]

theorem decodeDib_single (h : dibCount w = 1#2) :
    decodeDib w = .dec1 (dibLast w) (dibCh0 w) (dibCh1 w) (dibCh2 w) := by
  simp [decodeDib, h]

theorem decodeDib_pair (h : dibCount w = 2#2) :
    decodeDib w = .dec2 (dibLast w) (dibCh0 w) (dibCh1 w) (dibCh2 w) := by
  simp [decodeDib, h]

theorem decodeDib_triple (h : dibCount w = 3#2) :
    decodeDib w = .dec3 (dibLast w) (dibCh0 w) (dibCh1 w) (dibCh2 w) := by
  simp [decodeDib, h]

end Control

theorem encode_decodeEib (w : Eib) : encode (decodeEib w) = .eib w := by
  cases h : eibTwo w with
  | false => rw [decodeEib_single h, encode, ← h, packEib_fields]
  | true => rw [decodeEib_pair h, encode, ← h, packEib_fields]

theorem encode_decodeDib (w : Dib) : encode (decodeDib w) = .dib w := by
  rcases count_cases (dibCount w) with h | h | h | h
  · rw [decodeDib_none h, encode, ← h, packDib_fields]
  · rw [decodeDib_single h, encode, ← h, packDib_fields]
  · rw [decodeDib_pair h, encode, ← h, packDib_fields]
  · rw [decodeDib_triple h, encode, ← h, packDib_fields]

/-- Every beat word is the word of the operation it selects. -/
@[simp] theorem encode_decode (b : Beat) : encode (decode b) = b := by
  cases b with
  | eib w => exact encode_decodeEib w
  | dib w => exact encode_decodeDib w

/-! ### The control field under the mask of its rows -/

/-- The mask of the encoder's rows keeps the `two` bit. -/
theorem eibTwo_masked (w : Eib) : eibTwo (w &&& 0x10000#17) = eibTwo w := by
  simp [eibTwo]

/-- The mask of the decoder's rows keeps the `nchars` field. -/
theorem dibCount_masked (w : Dib) : dibCount (w &&& 0x3000000#27) = dibCount w := by
  ext i hi
  simp only [dibCount, BitVec.getElem_extractLsb', BitVec.getLsbD_and]
  interval_cases i <;> simp

theorem eibTwo_of_masked {w m : Eib} (h : w &&& 0x10000#17 = m) : eibTwo w = eibTwo m := by
  rw [← h, eibTwo_masked]

theorem dibCount_of_masked {w m : Dib} (h : w &&& 0x3000000#27 = m) : dibCount w = dibCount m := by
  rw [← h, dibCount_masked]

/-! ### Table words -/

/-- A table word that decodes is offered as the beat it decodes from (log entry 3). -/
theorem offerWord_of_decodeTableWord {nbits w : Nat} {i : Instr} (h : decodeTableWord nbits w = some i) :
    (∃ v, i = decode (.eib v) ∧ Machine.offerWord nbits w = .encEdge ⟨false, true, v, true⟩) ∨
      (∃ v, i = decode (.dib v) ∧ Machine.offerWord nbits w = .decEdge ⟨false, true, v, true⟩) := by
  simp only [decodeTableWord, decodeWord, beatOfWord] at h
  split_ifs at h with henc
  · cases h
    exact .inl ⟨_, rfl, if_pos henc⟩
  · cases h
    exact .inr ⟨_, rfl, if_neg henc⟩

theorem Machine.step_withFetchWord (s : Machine.State) (nbits w : Nat) :
    Machine.step (s.withFetchWord nbits w) = Machine.applyEvent (Machine.offerWord nbits w) s := rfl

end Sys2Proof

end

section
/-!
Which lanes the beat functions read, and which lanes of their outputs are zero (R47, R48).
-/

namespace Sys2Proof.Machine

/-! ### The beat function of each value of the control field -/

section Control

variable {v : Eib} {w : Dib}

theorem encBeat_single (h : eibTwo v = false) : encBeat v = enc1Word (eibB0 v) := by
  simp [encBeat, h]

theorem encBeat_pair (h : eibTwo v = true) : encBeat v = enc2Word (eibB0 v) (eibB1 v) := by
  simp [encBeat, h]

theorem decBeat_none (h : dibCount w = 0#2) (ff : FrameFlags) : decBeat ff w = dec0Result (dibLast w) ff := by
  simp [decBeat, h]

theorem decBeat_single (h : dibCount w = 1#2) (ff : FrameFlags) :
    decBeat ff w = dec1Result (dibLast w) (dibCh0 w) ff := by
  simp [decBeat, h]

theorem decBeat_pair (h : dibCount w = 2#2) (ff : FrameFlags) :
    decBeat ff w = dec2Result (dibLast w) (dibCh0 w) (dibCh1 w) ff := by
  simp [decBeat, h]

theorem decBeat_triple (h : dibCount w = 3#2) (ff : FrameFlags) :
    decBeat ff w = dec3Result (dibLast w) (dibCh0 w) (dibCh1 w) (dibCh2 w) ff := by
  simp [decBeat, h]

end Control

/-! ### Unused output lanes -/

/-- The byte result uses no count that is never produced, and its unused lanes are zero (R42, R48). -/
structure ByteOut.Padded (b : ByteOut) : Prop where
  count_ne : b.count ≠ 3#2
  byte0_eq : b.count = 0#2 → b.byte0 = 0#8
  byte1_eq : b.count ≠ 2#2 → b.byte1 = 0#8

theorem bytesNone_padded : bytesNone.Padded :=
  ⟨by decide, fun _ => rfl, fun _ => rfl⟩

theorem bytesPair_padded (c d : Digit) : (bytesPair c d).Padded :=
  ⟨by simp [bytesPair], by simp [bytesPair], fun _ => rfl⟩

theorem bytesTriple_padded (c d e : Digit) : (bytesTriple c d e).Padded :=
  ⟨by simp [bytesTriple], by simp [bytesTriple], fun h => absurd rfl h⟩

theorem ByteOut.Padded.suppress {bytes : ByteOut} (h : bytes.Padded) (bf ff : FrameFlags) :
    (suppress bf ff bytes).Padded := by
  unfold Machine.suppress
  split
  · exact bytesNone_padded
  · exact h

/-- The byte result with which each decoder beat ends in the shared tail is padded. -/
theorem decBeat_eq_finishBeat_padded (ff : FrameFlags) (w : Dib) :
    ∃ bf bytes, bytes.Padded ∧ decBeat ff w = finishBeat (dibLast w) bf bytes ff := by
  rcases count_cases (dibCount w) with h | h | h | h
  · exact ⟨_, _, bytesNone_padded, decBeat_none h ff⟩
  · exact ⟨_, _, bytesNone_padded, decBeat_single h ff⟩
  · exact ⟨_, _, bytesPair_padded _ _, decBeat_pair h ff⟩
  · exact ⟨_, _, bytesTriple_padded _ _ _, decBeat_triple h ff⟩

end Sys2Proof.Machine

end

section
/-!
When an event has a next state: exactly when the host keeps its duties (R102, R108).
-/

namespace Sys2Proof.Machine

variable {s : State}

theorem acceptEnc_next (hl : s.enc.live = true) (i : Eib) (o : Eob) : ∃ t, acceptEnc i o s = .next t := by
  cases hroom : s.enc.hasRoom s.params.latEnc s.params.depthEnc with
  | true => exact ⟨_, acceptEnc_room hl hroom⟩
  | false => exact ⟨_, acceptEnc_full hl hroom⟩

theorem acceptDec_next (hl : s.dec.live = true) (i : Dib) (r : Dob × FrameFlags) : ∃ t, acceptDec i r s = .next t := by
  cases hroom : s.dec.hasRoom s.params.latDec s.params.depthDec with
  | true => exact ⟨_, acceptDec_room hl hroom⟩
  | false => exact ⟨_, acceptDec_full hl hroom⟩

theorem encEdge_next_iff (p : Pins Eib) : (∃ t, encEdge p s = .next t) ↔ p.rst = true ∨ s.enc.live = true := by
  constructor
  · rintro ⟨t, ht⟩
    obtain ⟨hrst, -⟩ | ⟨-, hl, -⟩ | ⟨-, hl, -⟩ := encEdge_cases ht
    · exact .inl hrst
    · exact .inr hl
    · exact .inr hl
  · intro h
    cases hrst : p.rst with
    | true => exact ⟨_, encEdge_reset hrst⟩
    | false =>
      have hl : s.enc.live = true := h.resolve_left (by simp [hrst])
      cases hin : p.inValid && s.encInReady p with
      | false => exact ⟨_, encEdge_not_taken hrst hl hin⟩
      | true =>
        obtain ⟨hvalid, hready⟩ := Bool.and_eq_true_iff.1 hin
        rw [encEdge_taken hrst hl hvalid hready, exec_decode_eib]
        exact acceptEnc_next (by simpa using hl) _ _

theorem decEdge_next_iff (p : Pins Dib) : (∃ t, decEdge p s = .next t) ↔ p.rst = true ∨ s.dec.live = true := by
  constructor
  · rintro ⟨t, ht⟩
    obtain ⟨hrst, -⟩ | ⟨-, hl, -⟩ | ⟨-, hl, -⟩ := decEdge_cases ht
    · exact .inl hrst
    · exact .inr hl
    · exact .inr hl
  · intro h
    cases hrst : p.rst with
    | true => exact ⟨_, decEdge_reset hrst⟩
    | false =>
      have hl : s.dec.live = true := h.resolve_left (by simp [hrst])
      cases hin : p.inValid && s.decInReady p with
      | false => exact ⟨_, decEdge_not_taken hrst hl hin⟩
      | true =>
        obtain ⟨hvalid, hready⟩ := Bool.and_eq_true_iff.1 hin
        rw [decEdge_taken hrst hl hvalid hready, exec_decode_dib]
        exact acceptDec_next (by simpa using hl) _ _

theorem applyEvent_next_iff (ev : HostEvent) : (∃ t, applyEvent ev s = .next t) ↔ dutiful s ev := by
  cases ev with
  | encEdge p => exact encEdge_next_iff p
  | decEdge p => exact decEdge_next_iff p
  | encUndriven => simp [applyEvent, dutiful]
  | decUndriven => simp [applyEvent, dutiful]
  | encLoop p =>
    by_cases hlat : s.params.latEnc = 0
    · simp [applyEvent, dutiful, hlat]
    · rw [applyEvent_encLoop hlat, encEdge_next_iff]
      exact (and_iff_right hlat).symm
  | decLoop p =>
    by_cases hlat : s.params.latDec = 0
    · simp [applyEvent, dutiful, hlat]
    · rw [applyEvent_decLoop hlat, decEdge_next_iff]
      exact (and_iff_right hlat).symm
  | encGate => exact iff_of_true ⟨_, rfl⟩ trivial
  | decGate => exact iff_of_true ⟨_, rfl⟩ trivial

/-- The duties at an event do not depend on what the host does later. -/
theorem dutiful_withHost (l : List HostEvent) (ev : HostEvent) : dutiful { s with host := l } ev ↔ dutiful s ev := by
  cases ev <;> rfl

end Sys2Proof.Machine

end

section
/-!
The statements about beat words and the operations they select (30_encoding.md).
-/

open Sys2Proof Sys2Proof.Machine

/-- Settles O1: each field of a laid-out word is the field it was laid out with. -/
theorem decodeOfEncodeIsTheOperation : Obligations.DecodeOfEncodeIsTheOperation := decode_encode

/-- Settles O2: a word is laid out from its own fields, and the control field selects the operation with that field. -/
theorem encodeOfDecodeIsTheBeat : Obligations.EncodeOfDecodeIsTheBeat := encode_decode

/-- Settles O3: a masked word has the word's own control field, so it tells which operation is selected. -/
theorem controlFieldsSelectTheOperation : Obligations.ControlFieldsSelectTheOperation := by
  constructor
  · intro w
    refine ⟨eibB0 w, eibB1 w, BitVec.setWidth_ushiftRight_eq_extractLsb.symm,
      (BitVec.setWidth_eq_extractLsb' (by decide)).symm, ?_, ?_⟩
    · exact fun h => decodeEib_single (eibTwo_of_masked h)
    · exact fun h => decodeEib_pair (eibTwo_of_masked h)
  · intro w
    refine ⟨dibLast w, dibCh0 w, dibCh1 w, dibCh2 w, rfl, BitVec.setWidth_ushiftRight_eq_extractLsb.symm,
      BitVec.setWidth_ushiftRight_eq_extractLsb.symm, (BitVec.setWidth_eq_extractLsb' (by decide)).symm, ?_, ?_, ?_, ?_⟩
    · exact fun h => decodeDib_none (dibCount_of_masked h)
    · exact fun h => decodeDib_single (dibCount_of_masked h)
    · exact fun h => decodeDib_pair (dibCount_of_masked h)
    · exact fun h => decodeDib_triple (dibCount_of_masked h)

/-- Settles O24: the result of each control value is a function of the lanes it uses. -/
theorem unusedInputLanesAreIgnored : Obligations.UnusedInputLanesAreIgnored := by
  constructor
  · intro v w hv hw h0
    rw [encBeat_single hv, encBeat_single hw, h0]
  · intro ff v w hlast hcount h0 h1 h2
    rcases count_cases (dibCount v) with h | h | h | h <;> rw [h] at hcount h0 h1 h2
    · rw [decBeat_none h, decBeat_none hcount.symm, hlast]
    · rw [decBeat_single h, decBeat_single hcount.symm, hlast, h0 (by decide)]
    · rw [decBeat_pair h, decBeat_pair hcount.symm, hlast, h0 (by decide), h1 (by decide)]
    · rw [decBeat_triple h, decBeat_triple hcount.symm, hlast, h0 (by decide), h1 (by decide), h2 (by decide)]

/-- Settles O25: an encoder word is laid out with 2 or 3, and a decoder's byte result is padded before and after suppression. -/
theorem unusedOutputLanesAreZero : Obligations.UnusedOutputLanesAreZero := by
  constructor
  · intro w
    cases h : eibTwo w with
    | false => simp [encBeat_single h, enc1Word]
    | true => simp [encBeat_pair h, enc2Word]
  · intro ff w
    obtain ⟨bf, bytes, hpadded, hbeat⟩ := decBeat_eq_finishBeat_padded ff w
    obtain ⟨hcount, hbyte0, hbyte1⟩ := hpadded.suppress bf ff
    rw [hbeat, finishBeat_count, finishBeat_byte0, finishBeat_byte1]
    exact ⟨hcount, hbyte0, hbyte1⟩

/-- Settles O48: with no event there is always a next state, and with one exactly when the host keeps its duties at it. -/
theorem onlyHostViolationsStopAStep : Obligations.OnlyHostViolationsStopAStep := by
  intro s
  unfold safeStep
  cases hs : s.host with
  | nil => exact iff_of_true ⟨s, step_of_host_nil hs⟩ (by simp)
  | cons ev rest =>
    rw [step_of_host_cons hs, applyEvent_next_iff, dutiful_withHost]
    simp

/-- Settles O4: six closed words, evaluated. -/
theorem specWordsDecode : Obligations.SpecWordsDecode := by
  refine ⟨?_, ?_, ?_, ?_, ?_, ?_⟩ <;> rfl

/-- Settles O37: the word is offered as the beat of its operation, and an offered beat that is taken runs its operation. -/
theorem fetchedWordRunsItsOperation : Obligations.FetchedWordRunsItsOperation := by
  intro s nbits w i hi
  rw [step_withFetchWord]
  obtain ⟨v, rfl, hoffer⟩ | ⟨v, rfl, hoffer⟩ := offerWord_of_decodeTableWord hi
  · rw [hoffer, encode_decode]
    constructor
    · rintro _ ⟨⟩ hl hr
      exact encEdge_taken rfl hl rfl hr
    · rintro _ ⟨⟩
  · rw [hoffer, encode_decode]
    constructor
    · rintro _ ⟨⟩
    · rintro _ ⟨⟩ hl hr
      exact decEdge_taken rfl hl rfl hr

end

section
/-!
What the two tables hold (section 2.1): the codes of the encoder's table, `FOLD` on numbers, and the decoder's lookup as a search
for the folded code (R51 to R54).
-/

namespace Sys2Proof.Machine

open Sys2Proof.Claims

/-! ### The encoder's table -/

/-- No code stands twice in the table (R51). -/
theorem encTable_nodup : encTable.Nodup := by decide

theorem length_encTable : encTable.length = 45 := rfl

/-- A digit is inside the table, so the default of the lookup is not read. -/
theorem encLut_eq_getElem (v : Digit) : encLut v = encTable[v.val]'(v.isLt.trans_eq length_encTable.symm) :=
  (List.getElem_eq_getD 0).symm

theorem encLut_injective : Function.Injective encLut := by
  intro v w h
  rw [encLut_eq_getElem, encLut_eq_getElem] at h
  exact Fin.ext (encTable_nodup.getElem_inj_iff.mp h)

theorem mem_encTable_iff_exists (c : Byte) : c ∈ encTable ↔ ∃ v, encLut v = c := by
  simp only [encLut_eq_getElem]
  constructor
  · intro h
    obtain ⟨n, hn, hc⟩ := List.getElem_of_mem h
    exact ⟨⟨n, hn.trans_eq length_encTable⟩, hc⟩
  · rintro ⟨v, rfl⟩
    exact List.getElem_mem _

/-- The codes of the table: the digits, the upper-case letters and nine single characters (R52). -/
theorem mem_encTable_iff_toNat (c : Byte) :
    c ∈ encTable ↔ (0x30 ≤ c.toNat ∧ c.toNat ≤ 0x39) ∨ (0x41 ≤ c.toNat ∧ c.toNat ≤ 0x5A) ∨
      c.toNat ∈ [0x20, 0x24, 0x25, 0x2A, 0x2B, 0x2D, 0x2E, 0x2F, 0x3A] := by
  simp only [encTable, List.mem_append, List.mem_cons, List.not_mem_nil, or_false, ← BitVec.toNat_inj, BitVec.reduceToNat]
  omega

/-- The table is the alphabet's string, character by character. -/
theorem encLut_eq_charAt (v : Digit) : encLut v = charAt v.val := by
  revert v
  decide

/-! ### Case folding -/

theorem fold_toNat (ch : Byte) : (fold ch).toNat = upper ch := by
  simp only [fold, upper, BitVec.le_def, BitVec.reduceToNat]
  split_ifs with h
  · bv_omega
  · rfl

/-- No lower-case letter is in the encoder's table. -/
theorem fold_encLut (v : Digit) : fold (encLut v) = encLut v := by
  have h := (mem_encTable_iff_toNat _).mp ((mem_encTable_iff_exists _).mpr ⟨v, rfl⟩)
  simp only [List.mem_cons, List.not_mem_nil, or_false] at h
  refine if_neg fun hlower => ?_
  simp only [BitVec.le_def, BitVec.reduceToNat] at hlower
  omega

/-! ### The decoder's lookup -/

/-- A lookup succeeds at a digit with the folded code, or there is none and it fails with digit 0 (R54). -/
theorem decLut_cases (ch : Byte) :
    (∃ v, encLut v = fold ch ∧ decLut ch = ⟨true, v⟩) ∨ ((∀ v, encLut v ≠ fold ch) ∧ decLut ch = ⟨false, 0⟩) := by
  unfold decLut
  split
  next v hv => exact .inl ⟨v, by simpa using List.find?_some hv, rfl⟩
  next hnone => exact .inr ⟨fun v => by simpa using List.find?_eq_none.mp hnone v (List.mem_finRange v), rfl⟩

theorem decLut_eq_ok_iff (ch : Byte) (v : Digit) : decLut ch = ⟨true, v⟩ ↔ encLut v = fold ch := by
  obtain ⟨w, hw, h⟩ | ⟨hnone, h⟩ := decLut_cases ch
  · rw [h, ← hw, encLut_injective.eq_iff, Lookup.mk.injEq, eq_self, true_and, eq_comm]
  · exact iff_of_false (by simp [h]) (hnone v)

theorem decLut_eq_fail_iff (ch : Byte) : decLut ch = ⟨false, 0⟩ ↔ ∀ v, encLut v ≠ fold ch := by
  obtain ⟨w, hw, h⟩ | ⟨hnone, h⟩ := decLut_cases ch
  · exact iff_of_false (by simp [h]) (fun hnone => hnone w hw)
  · exact iff_of_true h hnone

theorem decLut_ok_eq_false_iff (ch : Byte) : (decLut ch).ok = false ↔ fold ch ∉ encTable := by
  rw [mem_encTable_iff_exists, not_exists]
  obtain ⟨w, hw, h⟩ | ⟨hnone, h⟩ := decLut_cases ch
  · exact iff_of_false (by simp [h]) (fun hnone => hnone w hw)
  · exact iff_of_true (by simp [h]) hnone

@[simp] theorem decLut_encLut (v : Digit) : decLut (encLut v) = ⟨true, v⟩ :=
  (decLut_eq_ok_iff _ v).mpr (fold_encLut v).symm

/-! ### The characters of the alphabet -/

theorem digitOf_iff (ch : Byte) (v : Digit) : DigitOf ch v.val ↔ encLut v = fold ch := by
  rw [DigitOf, and_iff_right v.isLt, ← fold_toNat, BitVec.toNat_inj, encLut_eq_charAt]

theorem invalid_iff (ch : Byte) : Invalid ch ↔ ∀ v, encLut v ≠ fold ch := by
  constructor
  · exact fun h v hv => h v.val ((digitOf_iff ch v).mpr hv)
  · intro h n hdigit
    have ⟨hn, _⟩ := hdigit
    exact h ⟨n, hn⟩ ((digitOf_iff ch ⟨n, hn⟩).mp hdigit)

/-- The eight ranges of R55. -/
abbrev InvalidRange (n : Nat) : Prop :=
  n ≤ 0x1F ∨ (0x21 ≤ n ∧ n ≤ 0x23) ∨ (0x26 ≤ n ∧ n ≤ 0x29) ∨ n = 0x2C ∨ (0x3B ≤ n ∧ n ≤ 0x40) ∨
    (0x5B ≤ n ∧ n ≤ 0x60) ∨ (0x7B ≤ n ∧ n ≤ 0x7F) ∨ 0x80 ≤ n

theorem decLut_ok_eq_false_iff_invalidRange (ch : Byte) : (decLut ch).ok = false ↔ InvalidRange ch.toNat := by
  rw [decLut_ok_eq_false_iff, mem_encTable_iff_toNat, fold_toNat]
  simp only [upper, InvalidRange, List.mem_cons, List.not_mem_nil, or_false]
  split_ifs <;> omega

/-- The lookup of a code below 256 fails exactly in the ranges, in the form in which the invalid codes are counted. -/
theorem not_decLut_ok_eq_decide {n : Nat} (hn : n < 256) :
    (!(decLut (BitVec.ofNat 8 n)).ok) = decide (InvalidRange n) := by
  have h := decLut_ok_eq_false_iff_invalidRange (BitVec.ofNat 8 n)
  rw [BitVec.toNat_ofNat, Nat.mod_eq_of_lt hn] at h
  rw [Bool.eq_iff_iff, Bool.not_eq_true', h, decide_eq_true_iff]

end Sys2Proof.Machine

end

section
/-!
The statements about the alphabet and its two tables (40_alphabet.md).
-/

open Sys2Proof.Machine Sys2Proof.Claims

/-- Settles O6: the lookup searches the encoder's table, which is the alphabet, for the folded code. -/
theorem decoderTableFoldsCase : Obligations.DecoderTableFoldsCase := by
  intro ch
  refine ⟨fold_toNat ch, fun v => ?_, ?_⟩
  · rw [decLut_eq_ok_iff, digitOf_iff]
  · rw [decLut_eq_fail_iff, invalid_iff]

/-- Settles O5: the table has no code twice, so no two digits share a character. -/
theorem encoderTableIsTheAlphabet : Obligations.EncoderTableIsTheAlphabet :=
  ⟨rfl, encLut_eq_charAt, fun _ _ h => encLut_injective h, rfl⟩

/-- Settles O7: a code is invalid when its folded code is not in the encoder's table; the codes counted are those of the ranges. -/
theorem invalidCodesAreThese : Obligations.InvalidCodesAreThese := by
  refine ⟨decLut_ok_eq_false_iff_invalidRange, ?_⟩
  rw [List.filter_congr fun n hn => not_decLut_ok_eq_decide (List.mem_range.mp hn)]
  rfl

/-- Settles O8: both directions are the lookup's own condition, at a code that folding leaves alone and at any code. -/
theorem tablesAreInverse : Obligations.TablesAreInverse :=
  ⟨decLut_encLut, fun ch v h => (decLut_eq_ok_iff ch v).mp h⟩

end

section
/-!
What the encoder puts out: the digits of the divider and of a single byte, and each output word as the alphabet's characters
at its digits (R57 to R62).
-/

namespace Sys2Proof

/-! ### The lanes of a word as numbers -/

theorem eibB0_toNat (w : Eib) : (eibB0 w).toNat = (w >>> 8).toNat % 256 := by
  simp [eibB0]

theorem eibB1_toNat (w : Eib) : (eibB1 w).toNat = w.toNat % 256 := by
  simp [eibB1]

namespace Machine

open Sys2Proof.Claims

/-! ### The digits -/

/-- The identity of the divider (R57). -/
theorem divmod2025_value (x : BitVec 16) :
    x.toNat = (divmod2025 x).c.val + 45 * (divmod2025 x).d.val + 2025 * (divmod2025 x).e.val := by
  simp only [divmod2025]
  omega

theorem divmod2025_e_le (x : BitVec 16) : (divmod2025 x).e.val ≤ 32 := by
  simp only [divmod2025]
  omega

theorem divmod2025_e_eq_32_iff (x : BitVec 16) : (divmod2025 x).e.val = 32 ↔ 64800 ≤ x.toNat := by
  simp only [divmod2025]
  omega

theorem byteD_le (b : Byte) : (byteD b).val ≤ 5 := by
  simp only [byteD]
  omega

/-- A byte is below 2025, so the divider gives it the digits of `ENC1` and no third one (R61). -/
theorem divmod2025_setWidth (b : Byte) : divmod2025 (b.setWidth 16) = ⟨byteC b, byteD b, 0⟩ := by
  have hval : (b.setWidth 16).toNat = b.toNat := BitVec.toNat_setWidth_of_le (by decide)
  have hb : b.toNat < 2025 := b.isLt.trans (by decide)
  simp only [divmod2025, byteC, byteD, hval, Nat.mod_eq_of_lt hb, Nat.div_eq_of_lt hb, Fin.mk_zero]

/-! ### The output words -/

/-- The characters of a pair's word are those of the divider's digits, least significant first (R30, R60). -/
theorem enc2Word_eq_charAt (b0 b1 : Byte) :
    enc2Word b0 b1 =
      3#2 ++ charAt ((b0.toNat * 256 + b1.toNat) % 2025 % 45) ++ charAt ((b0.toNat * 256 + b1.toNat) % 2025 / 45) ++
        charAt ((b0.toNat * 256 + b1.toNat) / 2025) := by
  simp only [enc2Word, packEob, encLut_eq_charAt, divmod2025, pairWord_toNat]

theorem enc1Word_eq_charAt (b0 : Byte) :
    enc1Word b0 = 2#2 ++ charAt (b0.toNat % 45) ++ charAt (b0.toNat / 45) ++ 0#8 := by
  simp only [enc1Word, packEob, encLut_eq_charAt, byteC, byteD]

theorem eobCount_enc2Word (b0 b1 : Byte) : eobCount (enc2Word b0 b1) = 3#2 :=
  eobCount_packEob _ _ _ _

theorem eobCount_enc1Word (b0 : Byte) : eobCount (enc1Word b0) = 2#2 :=
  eobCount_packEob _ _ _ _

theorem eobChars_enc2Word (b0 b1 : Byte) :
    eobChars (enc2Word b0 b1) =
      [encLut (divmod2025 (pairWord b0 b1)).c, encLut (divmod2025 (pairWord b0 b1)).d,
        encLut (divmod2025 (pairWord b0 b1)).e] := by
  simp [eobChars, enc2Word]

theorem eobChars_enc1Word (b0 : Byte) : eobChars (enc1Word b0) = [encLut (byteC b0), encLut (byteD b0)] := by
  simp [eobChars, enc1Word]

/-- Every used lane of an encoder output word was read from the encoder's table. -/
theorem exists_encLut_of_mem_eobChars {w : Eib} {ch : Byte} (h : ch ∈ eobChars (encBeat w)) : ∃ v, encLut v = ch := by
  cases htwo : eibTwo w with
  | false =>
    rw [encBeat_single htwo, eobChars_enc1Word] at h
    simp only [List.mem_cons, List.not_mem_nil, or_false] at h
    obtain rfl | rfl := h <;> exact ⟨_, rfl⟩
  | true =>
    rw [encBeat_pair htwo, eobChars_enc2Word] at h
    simp only [List.mem_cons, List.not_mem_nil, or_false] at h
    obtain rfl | rfl | rfl := h <;> exact ⟨_, rfl⟩

/-! ### The operations -/

theorem exec_enc1 (b0 x1 : Byte) (s : State) :
    exec (.enc1 b0 x1) s = acceptEnc (packEib false b0 x1) (enc1Word b0) s := rfl

theorem exec_enc2 (b0 b1 : Byte) (s : State) :
    exec (.enc2 b0 b1) s = acceptEnc (packEib true b0 b1) (enc2Word b0 b1) s := rfl

theorem acceptEnc_of_encFree {s : State} (h : EncFree s) (i : Eib) (o : Eob) :
    acceptEnc i o s = .next (tookEnc i o s) := by
  obtain ⟨hlive, hroom⟩ := h
  rw [acceptEnc_room hlive (hasRoom_iff.2 hroom), tookEnc_eq_accept]

end Machine

end Sys2Proof

end

section
/-!
The statements about the encoder (41_encoder.md).
-/

open Sys2Proof Sys2Proof.Machine Sys2Proof.Claims

/-- Settles O10: the top digit is bounded by the largest pair value, and every used lane is read from the table at a digit. -/
theorem encoderDigitsStayInRange : Obligations.EncoderDigitsStayInRange := by
  refine ⟨fun b0 b1 => ⟨divmod2025_e_le _, ?_⟩, byteD_le, fun w ch hch => ?_, rfl⟩
  · rw [divmod2025_e_eq_32_iff, pairWord_toNat]
  · obtain ⟨v, rfl⟩ := exists_encLut_of_mem_eobChars hch
    exact ⟨v.val, v.isLt, encLut_eq_charAt v⟩

/-- Settles O11: a unit with room takes the beat, whose output word has the characters of the divider's digits. -/
theorem enc2TakesPairToThreeCharacters : Obligations.Enc2TakesPairToThreeCharacters := by
  intro b0 b1 s hs
  rw [exec_enc2, acceptEnc_of_encFree hs, enc2Word_eq_charAt]
  rfl

/-- Settles O12: a unit with room takes the beat, and the divider gives the same two digits because a byte is below 2025. -/
theorem enc1TakesByteToTwoCharacters : Obligations.Enc1TakesByteToTwoCharacters := by
  intro b0 x1 s hs
  refine ⟨?_, divmod2025_setWidth b0⟩
  rw [exec_enc1, acceptEnc_of_encFree hs, enc1Word_eq_charAt]
  rfl

/-- Settles O13: bit 16 is the control field, and the two numbers are the byte lanes. -/
theorem encoderBeatFunction : Obligations.EncoderBeatFunction := by
  intro w b0 b1 h0 h1
  rw [← eibB0_toNat] at h0
  rw [← eibB1_toNat] at h1
  subst h0 h1
  constructor
  · intro htwo
    rw [encBeat_pair htwo]
    exact ⟨eobCount_enc2Word _ _, enc2Word_eq_charAt _ _⟩
  · intro htwo
    rw [encBeat_single htwo]
    exact ⟨eobCount_enc1Word _, enc1Word_eq_charAt _⟩

/-- Settles O9: the digits are the quotients and remainders by definition; the bound and the identity follow. -/
theorem dividerGivesTheDigits : Obligations.DividerGivesTheDigits := fun x =>
  ⟨(divmod2025 x).c, (divmod2025 x).d, (divmod2025 x).e, rfl, rfl, rfl, rfl, divmod2025_e_le x, divmod2025_value x⟩

end

section
/-!
What the decoder makes of its used lanes: the lookups of digits and of invalid codes, the beat flags of a list of lookups, the
shared tail in a clean and in a failed frame, and each operation's result as a case of these (R63 to R72).
-/

namespace Sys2Proof

theorem packDib_eq_append (last : Bool) (n : BitVec 2) (c0 c1 c2 : Byte) :
    packDib last n c0 c1 c2 = BitVec.ofBool last ++ n ++ c0 ++ c1 ++ c2 := rfl

namespace Machine

open Sys2Proof.Claims

/-! ### Lookups -/

theorem digitOf_iff_decLut (ch : Byte) (n : Nat) : DigitOf ch n ↔ ∃ v : Digit, v.val = n ∧ decLut ch = ⟨true, v⟩ := by
  constructor
  · intro h
    have ⟨hn, _⟩ := h
    exact ⟨⟨n, hn⟩, rfl, (decLut_eq_ok_iff ch _).mpr ((digitOf_iff ch ⟨n, hn⟩).mp h)⟩
  · rintro ⟨v, rfl, hv⟩
    exact (digitOf_iff ch v).mpr ((decLut_eq_ok_iff ch v).mp hv)

theorem decLut_ok_eq_false_iff_invalid (ch : Byte) : (decLut ch).ok = false ↔ Invalid ch := by
  rw [invalid_iff, ← decLut_eq_fail_iff]
  obtain ⟨v, _, h⟩ | ⟨_, h⟩ := decLut_cases ch <;> simp [h]

theorem anyInvalid_map_decLut (chs : List Byte) : anyInvalid (chs.map decLut) = true ↔ ∃ ch ∈ chs, Invalid ch := by
  simp [anyInvalid, decLut_ok_eq_false_iff_invalid]

/-! ### The beat flags of the used lanes -/

/-- An overflow is seen on three valid lookups only (R65). -/
theorem overflows_iff (used : List Lookup) :
    overflows used = true ↔ ∃ c d e, used = [⟨true, c⟩, ⟨true, d⟩, ⟨true, e⟩] ∧ 65535 < tripleValue c d e := by
  constructor
  · intro h
    unfold overflows at h
    split at h
    next l0 l1 l2 =>
      obtain ⟨ok0, c⟩ := l0
      obtain ⟨ok1, d⟩ := l1
      obtain ⟨ok2, e⟩ := l2
      simp only [anyInvalid, List.any_cons, List.any_nil, Bool.or_false, Bool.and_eq_true, Bool.not_eq_true',
        Bool.or_eq_false_iff, Bool.not_eq_false', decide_eq_true_iff] at h
      obtain ⟨⟨rfl, rfl, rfl⟩, hvalue⟩ := h
      exact ⟨c, d, e, rfl, hvalue⟩
    next => cases h
  · rintro ⟨c, d, e, rfl, hvalue⟩
    simpa [overflows, anyInvalid] using hvalue

/-- A beat with an invalid used lane has no flag `do`, and `il` only when the lane is its only one (R65). -/
theorem beatFlags_of_invalid {chs : List Byte} (h : ∃ ch ∈ chs, Invalid ch) :
    beatFlags (chs.map decLut) = if chs.length = 1 then 0b011#3 else 0b001#3 := by
  have hic := (anyInvalid_map_decLut chs).mpr h
  have hdo : overflows (chs.map decLut) = false := by
    refine Bool.eq_false_iff.mpr fun hover => ?_
    obtain ⟨c, d, e, hvalid, _⟩ := (overflows_iff _).mp hover
    rw [hvalid] at hic
    cases hic
  rw [beatFlags, hic, hdo, dangling, List.length_map]
  split_ifs with hlen
  · rw [hlen]
    rfl
  · rw [beq_false_of_ne hlen]
    rfl

theorem beatFlags_valid_single (c : Digit) : beatFlags [⟨true, c⟩] = 0b010#3 :=
  calc
    beatFlags [⟨true, c⟩] = packFlags false true false := rfl
    _ = 0b010#3 := rfl

theorem beatFlags_valid_pair (c d : Digit) : beatFlags [⟨true, c⟩, ⟨true, d⟩] = 0#3 :=
  calc
    beatFlags [⟨true, c⟩, ⟨true, d⟩] = packFlags false false false := rfl
    _ = 0#3 := rfl

theorem beatFlags_fitting_triple {c d e : Digit} (h : tripleValue c d e ≤ 65535) :
    beatFlags [⟨true, c⟩, ⟨true, d⟩, ⟨true, e⟩] = 0#3 := by
  have hdo : overflows [⟨true, c⟩, ⟨true, d⟩, ⟨true, e⟩] = false := by
    simpa [overflows, anyInvalid] using h
  calc
    beatFlags [⟨true, c⟩, ⟨true, d⟩, ⟨true, e⟩] = packFlags false false false := by rw [beatFlags, hdo]; rfl
    _ = 0#3 := rfl

theorem beatFlags_overflowing_triple {c d e : Digit} (h : 65535 < tripleValue c d e) :
    beatFlags [⟨true, c⟩, ⟨true, d⟩, ⟨true, e⟩] = 0b100#3 := by
  have hdo := (overflows_iff _).mpr ⟨c, d, e, rfl, h⟩
  calc
    beatFlags [⟨true, c⟩, ⟨true, d⟩, ⟨true, e⟩] = packFlags true false false := by rw [beatFlags, hdo]; rfl
    _ = 0b100#3 := rfl

/-- The used lanes of a decoder beat: the first `nchars` (R43, R44). -/
def usedLanes (w : Dib) : List Byte := [dibCh0 w, dibCh1 w, dibCh2 w].take (dibCount w).toNat

theorem length_usedLanes (w : Dib) : (usedLanes w).length = (dibCount w).toNat := by
  have := (dibCount w).isLt
  simp only [usedLanes, List.length_take, List.length_cons, List.length_nil]
  omega

/-- The beat flags of every decoder beat are those of the lookups of its used lanes, whatever `FF` is (R65). -/
theorem dobBeatFlags_decBeat (ff : FrameFlags) (w : Dib) :
    dobBeatFlags (decBeat ff w).1 = beatFlags ((usedLanes w).map decLut) := by
  rcases count_cases (dibCount w) with h | h | h | h
  · rw [decBeat_none h, usedLanes, h]
    exact finishBeat_beatFlags ..
  · rw [decBeat_single h, usedLanes, h]
    exact finishBeat_beatFlags ..
  · rw [decBeat_pair h, usedLanes, h]
    exact finishBeat_beatFlags ..
  · rw [decBeat_triple h, usedLanes, h]
    exact finishBeat_beatFlags ..

theorem dangling_usedLanes (w : Dib) : dangling ((usedLanes w).map decLut) = true ↔ dibCount w = 1#2 := by
  rw [dangling, List.length_map, length_usedLanes, beq_iff_eq, ← BitVec.toNat_inj]
  rfl

theorem usedLanes_triple {w : Dib} (h : dibCount w = 3#2) : usedLanes w = [dibCh0 w, dibCh1 w, dibCh2 w] := by
  rw [usedLanes, h]
  rfl

theorem overflows_usedLanes (w : Dib) :
    overflows ((usedLanes w).map decLut) = true ↔ dibCount w = 3#2 ∧ ∃ c d e : Nat,
      DigitOf (dibCh0 w) c ∧ DigitOf (dibCh1 w) d ∧ DigitOf (dibCh2 w) e ∧ 65535 < c + 45 * d + 2025 * e := by
  rw [overflows_iff]
  constructor
  · rintro ⟨c, d, e, hused, hvalue⟩
    have hcount : dibCount w = 3#2 := by
      have hlen := congrArg List.length hused
      rw [List.length_map, length_usedLanes] at hlen
      exact BitVec.toNat_inj.mp hlen
    rw [usedLanes_triple hcount] at hused
    simp only [List.map_cons, List.map_nil, List.cons.injEq, and_true] at hused
    obtain ⟨h0, h1, h2⟩ := hused
    exact ⟨hcount, c, d, e, (digitOf_iff_decLut _ _).mpr ⟨c, rfl, h0⟩, (digitOf_iff_decLut _ _).mpr ⟨d, rfl, h1⟩,
      (digitOf_iff_decLut _ _).mpr ⟨e, rfl, h2⟩, hvalue⟩
  · rintro ⟨hcount, c, d, e, h0, h1, h2, hvalue⟩
    obtain ⟨c, rfl, l0⟩ := (digitOf_iff_decLut _ _).mp h0
    obtain ⟨d, rfl, l1⟩ := (digitOf_iff_decLut _ _).mp h1
    obtain ⟨e, rfl, l2⟩ := (digitOf_iff_decLut _ _).mp h2
    exact ⟨c, d, e, by simp [usedLanes_triple hcount, l0, l1, l2], hvalue⟩

/-! ### The shared tail -/

theorem prio_eq_prioOf (f : FrameFlags) : prio f = prioOf f := rfl

theorem leaveError_eq_closed (last : Bool) (f : FrameFlags) : leaveError last f = closed last f := rfl

theorem prioOf_or_of_ic {bf : FrameFlags} (h : bf.getLsbD 0 = true) (ff : FrameFlags) : prioOf (ff ||| bf) = 1#2 :=
  if_pos (by simp [h])

/-- A beat without flags in a clean frame passes its bytes (R66, R67). -/
theorem finishBeat_clean (last : Bool) (bytes : ByteOut) :
    finishBeat last 0#3 bytes 0#3 = (dob last bytes.count 0#3 0#3 0#2 bytes.byte0 bytes.byte1, 0#3) := by
  cases last <;> rfl

/-- A failing beat, or any beat of a failed frame, puts out no bytes (R66, R67). -/
theorem finishBeat_failed {bf ff : FrameFlags} (h : ff ≠ 0#3 ∨ bf ≠ 0#3) (last : Bool) (bytes : ByteOut) :
    finishBeat last bf bytes ff =
      (dob last 0#2 bf (ff ||| bf) (prioOf (ff ||| bf)) 0#8 0#8, closed last (ff ||| bf)) := by
  rw [finishBeat, suppress_failed h]
  rfl

/-- A beat without flags in a failed frame repeats the frame's flags. -/
theorem finishBeat_unflagged_failed {ff : FrameFlags} (h : ff ≠ 0#3) (last : Bool) (bytes : ByteOut) :
    finishBeat last 0#3 bytes ff = (dob last 0#2 0#3 ff (prioOf ff) 0#8 0#8, closed last ff) := by
  rw [finishBeat_failed (.inl h), BitVec.or_zero]

/-- A beat that detects InvalidCharacter gives its frame the code 1 (R94). -/
theorem finishBeat_ic {bf : FrameFlags} (h : bf.getLsbD 0 = true) (last : Bool) (bytes : ByteOut) (ff : FrameFlags) :
    finishBeat last bf bytes ff = (dob last 0#2 bf (ff ||| bf) 1#2 0#8 0#8, closed last (ff ||| bf)) := by
  have hbf : bf ≠ 0#3 := by
    rintro rfl
    simp at h
  rw [finishBeat_failed (.inr hbf), prioOf_or_of_ic h]

/-! ### The operations -/

theorem exec_dec0 (last : Bool) (x0 x1 x2 : Byte) (s : State) :
    exec (.dec0 last x0 x1 x2) s = acceptDec (packDib last 0#2 x0 x1 x2) (dec0Result last s.ff) s := rfl

theorem exec_dec1 (last : Bool) (ch0 x1 x2 : Byte) (s : State) :
    exec (.dec1 last ch0 x1 x2) s = acceptDec (packDib last 1#2 ch0 x1 x2) (dec1Result last ch0 s.ff) s := rfl

theorem exec_dec2 (last : Bool) (ch0 ch1 x2 : Byte) (s : State) :
    exec (.dec2 last ch0 ch1 x2) s = acceptDec (packDib last 2#2 ch0 ch1 x2) (dec2Result last ch0 ch1 s.ff) s := rfl

theorem exec_dec3 (last : Bool) (ch0 ch1 ch2 : Byte) (s : State) :
    exec (.dec3 last ch0 ch1 ch2) s = acceptDec (packDib last 3#2 ch0 ch1 ch2) (dec3Result last ch0 ch1 ch2 s.ff) s :=
  rfl

theorem acceptDec_of_decFree {s : State} (h : DecFree s) (i : Dib) (r : Dob × FrameFlags) :
    acceptDec i r s = .next (tookDec i r.1 r.2 s) := by
  obtain ⟨hlive, hroom⟩ := h
  rw [acceptDec_room hlive (hasRoom_iff.2 hroom), tookDec_eq_accept]

/-- `DEC0` has no flags and no bytes to suppress, so both kinds of frame give the same form (R72). -/
theorem dec0Result_eq (last : Bool) (ff : FrameFlags) :
    dec0Result last ff = (dob last 0#2 0#3 ff (prioOf ff) 0#8 0#8, closed last ff) := by
  by_cases h : ff = 0#3
  · subst h
    cases last <;> rfl
  · exact finishBeat_unflagged_failed h last bytesNone

theorem dec1Result_of_invalid {ch0 : Byte} (h : Invalid ch0) (last : Bool) (ff : FrameFlags) :
    dec1Result last ch0 ff =
      (dob last 0#2 0b011#3 (ff ||| 0b011#3) 1#2 0#8 0#8, closed last (ff ||| 0b011#3)) := by
  have hflags : beatFlags [decLut ch0] = 0b011#3 :=
    beatFlags_of_invalid (chs := [ch0]) (by simpa using h)
  rw [dec1Result, hflags, finishBeat_ic rfl]

theorem dec2Result_of_invalid {ch0 ch1 : Byte} (h : Invalid ch0 ∨ Invalid ch1) (last : Bool) (ff : FrameFlags) :
    dec2Result last ch0 ch1 ff =
      (dob last 0#2 0b001#3 (ff ||| 0b001#3) 1#2 0#8 0#8, closed last (ff ||| 0b001#3)) := by
  have hflags : beatFlags [decLut ch0, decLut ch1] = 0b001#3 :=
    beatFlags_of_invalid (chs := [ch0, ch1]) (by simpa using h)
  rw [dec2Result, hflags, finishBeat_ic rfl]

theorem dec3Result_of_invalid {ch0 ch1 ch2 : Byte} (h : Invalid ch0 ∨ Invalid ch1 ∨ Invalid ch2) (last : Bool)
    (ff : FrameFlags) :
    dec3Result last ch0 ch1 ch2 ff =
      (dob last 0#2 0b001#3 (ff ||| 0b001#3) 1#2 0#8 0#8, closed last (ff ||| 0b001#3)) := by
  have hflags : beatFlags [decLut ch0, decLut ch1, decLut ch2] = 0b001#3 :=
    beatFlags_of_invalid (chs := [ch0, ch1, ch2]) (by simpa using h)
  rw [dec3Result, hflags, finishBeat_ic rfl]

/-- The spec's order of the factors (R69). -/
theorem pairValue_eq (c d : Digit) : pairValue c d = c.val + d.val * 45 := by
  rw [pairValue, Nat.mul_comm]

/-- The spec's order of the factors (R68). -/
theorem tripleValue_eq (c d e : Digit) : tripleValue c d e = c.val + d.val * 45 + e.val * 2025 := by
  rw [tripleValue, Nat.mul_comm 45, Nat.mul_comm 2025]

/-- The value of a triple needs 17 bits, so bit 16 tells whether it exceeds 16 bits (R68). -/
theorem tripleValue_bit_iff (c d e : Digit) :
    (BitVec.ofNat 17 (tripleValue c d e)).getLsbD 16 = true ↔ 65535 < tripleValue c d e := by
  have hlt : tripleValue c d e < 2 ^ 17 := by
    simp only [tripleValue]
    omega
  rw [BitVec.getLsbD_ofNat, Nat.testBit_eq_decide_div_mod_eq]
  simp only [Nat.reduceLT, decide_true, Bool.true_and, decide_eq_true_iff]
  omega

/-! ### A failed frame -/

theorem decBeat_no_bytes {ff : FrameFlags} {w : Dib} (h : dobBeatFlags (decBeat ff w).1 ≠ 0#3 ∨ ff ≠ 0#3) :
    dobCount (decBeat ff w).1 = 0#2 ∧ dobByte0 (decBeat ff w).1 = 0#8 ∧ dobByte1 (decBeat ff w).1 = 0#8 := by
  obtain ⟨bf, bytes, hbeat⟩ := decBeat_eq_finishBeat ff w
  rw [hbeat, finishBeat_beatFlags] at h
  rw [hbeat, finishBeat_count, finishBeat_byte0, finishBeat_byte1, suppress_failed h.symm]
  exact ⟨rfl, rfl, rfl⟩

/-- Only the closing beat of a frame clears its flags, so a failed frame stays failed (R21, R97). -/
theorem decBeat_ff_ne_zero {ff : FrameFlags} {w : Dib} (hlast : dibLast w = false)
    (h : dobBeatFlags (decBeat ff w).1 ≠ 0#3 ∨ ff ≠ 0#3) : (decBeat ff w).2 ≠ 0#3 := by
  obtain ⟨bf, bytes, hbeat⟩ := decBeat_eq_finishBeat ff w
  rw [hbeat, finishBeat_beatFlags] at h
  rw [hbeat, finishBeat_ff, hlast, leaveError_open, Ne, BitVec.or_eq_zero_iff]
  tauto

end Machine

end Sys2Proof

end

section
/-!
The statements about the decoder's beats (42_decoder.md).
-/

open Sys2Proof Sys2Proof.Machine Sys2Proof.Claims

/-- Settles O16: the flags of a triple are those of its lookups, and the shared tail passes or suppresses its bytes. -/
theorem dec3TakesTripleToTwoBytes : Obligations.Dec3TakesTripleToTwoBytes := by
  intro last ch0 ch1 ch2 s hs
  simp only [exec_dec3, acceptDec_of_decFree hs, packDib_eq_append]
  constructor
  · intro c d e h0 h1 h2
    obtain ⟨c, rfl, l0⟩ := (digitOf_iff_decLut _ _).mp h0
    obtain ⟨d, rfl, l1⟩ := (digitOf_iff_decLut _ _).mp h1
    obtain ⟨e, rfl, l2⟩ := (digitOf_iff_decLut _ _).mp h2
    simp only [dec3Result, l0, l1, l2, ← tripleValue_eq]
    refine ⟨tripleValue_bit_iff c d e, fun hfit hff => ?_, fun hfit hff => ?_, fun hover => ?_⟩
    · rw [beatFlags_fitting_triple hfit, hff, finishBeat_clean]
      rfl
    · rw [beatFlags_fitting_triple hfit, finishBeat_unflagged_failed hff]
    · rw [beatFlags_overflowing_triple hover, finishBeat_failed (.inr (by decide))]
  · intro hinvalid
    rw [dec3Result_of_invalid hinvalid]

/-- Settles O17: two valid lookups raise no flag, so only the frame's status decides whether the byte passes. -/
theorem dec2TakesPairToOneByte : Obligations.Dec2TakesPairToOneByte := by
  intro last ch0 ch1 x2 s hs
  simp only [exec_dec2, acceptDec_of_decFree hs, packDib_eq_append]
  constructor
  · intro c d h0 h1
    obtain ⟨c, rfl, l0⟩ := (digitOf_iff_decLut _ _).mp h0
    obtain ⟨d, rfl, l1⟩ := (digitOf_iff_decLut _ _).mp h1
    simp only [dec2Result, l0, l1, beatFlags_valid_pair, ← pairValue_eq]
    refine ⟨fun hff => ?_, fun hff => ?_⟩
    · rw [hff, finishBeat_clean]
      rfl
    · rw [finishBeat_unflagged_failed hff]
  · intro hinvalid
    rw [dec2Result_of_invalid hinvalid]

/-- Settles O18: one lookup raises `il`, and `ic` with it when it fails; either way the beat has failed. -/
theorem dec1ReportsInvalidLength : Obligations.Dec1ReportsInvalidLength := by
  intro last ch0 x1 x2 s hs
  simp only [exec_dec1, acceptDec_of_decFree hs, packDib_eq_append]
  constructor
  · intro c h0
    obtain ⟨c, rfl, l0⟩ := (digitOf_iff_decLut _ _).mp h0
    rw [dec1Result, l0, beatFlags_valid_single, finishBeat_failed (.inr (by decide))]
  · intro hinvalid
    rw [dec1Result_of_invalid hinvalid]

/-- Settles O19: the empty chunk has nothing to add to the frame's flags. -/
theorem dec0RepeatsTheFrameStatus : Obligations.Dec0RepeatsTheFrameStatus := by
  intro last x0 x1 x2 s hs
  rw [exec_dec0, acceptDec_of_decFree hs, dec0Result_eq, packDib_eq_append]

/-- Settles O20: each flag is its own test on the lookups of the used lanes. -/
theorem beatFlagsNameTheErrors : Obligations.BeatFlagsNameTheErrors := by
  rintro ff w bf used rfl rfl
  rw [dobBeatFlags_decBeat]
  refine ⟨?_, ?_, ?_⟩
  · rw [← flagIc, beatFlags, flagIc_packFlags]
    exact anyInvalid_map_decLut (usedLanes w)
  · rw [← flagIl, beatFlags, flagIl_packFlags, dangling_usedLanes]
  · rw [← flagDo, beatFlags, flagDo_packFlags, overflows_usedLanes]

/-- Settles O21: every decoder beat ends in the shared tail. -/
theorem outputBeatReportsTheFrame : Obligations.OutputBeatReportsTheFrame := by
  rintro ff w bf rfl
  obtain ⟨bf, bytes, hbeat⟩ := decBeat_eq_finishBeat ff w
  rw [hbeat, finishBeat_last, finishBeat_beatFlags, finishBeat_frameFlags, finishBeat_code, finishBeat_ff]
  exact ⟨rfl, rfl, prio_eq_prioOf _, leaveError_eq_closed _ _⟩

/-- Settles O22, by induction on the frame: a beat of a failed frame puts out no byte and leaves the frame failed. -/
theorem failedFrameGivesNoMoreBytes : Obligations.FailedFrameGivesNoMoreBytes := by
  intro ff w rest hopen hfailed o ho
  induction rest generalizing ff w with
  | nil =>
    obtain rfl : o = (decBeat ff w).1 := by simpa [decRun] using ho
    exact decBeat_no_bytes hfailed
  | cons v rest ih =>
    rw [List.dropLast_cons_cons, List.forall_mem_cons] at hopen
    obtain ⟨hw, hopen⟩ := hopen
    obtain rfl | ho := List.mem_cons.mp ho
    · exact decBeat_no_bytes hfailed
    · exact ih _ v hopen (.inr (decBeat_ff_ne_zero hw hfailed)) ho

end

section
/-!
The digits behind `encode` and `decode`: both go through the tables one character at a time, so what they do to a message or a
string is arithmetic on lists of digits (R57, R73, R74).
-/

namespace Sys2Proof.Machine

open Sys2Proof.Claims

/-! ### Two bytes or one byte, and their digits -/

theorem divmod2025_eq_iff (x : BitVec 16) (c d e : Digit) :
    divmod2025 x = ⟨c, d, e⟩ ↔ x.toNat = tripleValue c d e := by
  constructor
  · intro h
    rw [divmod2025_value, h, tripleValue]
  · intro h
    simp only [tripleValue] at h
    simp only [divmod2025, Digits.mk.injEq, Fin.ext_iff]
    omega

theorem byteC_byteD_eq_iff (b : Byte) (c d : Digit) : (byteC b = c ∧ byteD b = d) ↔ b.toNat = pairValue c d := by
  simp only [byteC, byteD, pairValue, Fin.ext_iff]
  omega

/-- The value of a pair's digits is the pair's own (R57). -/
theorem tripleValue_divmod2025 (b0 b1 : Byte) :
    tripleValue (divmod2025 (pairWord b0 b1)).c (divmod2025 (pairWord b0 b1)).d (divmod2025 (pairWord b0 b1)).e =
      b0.toNat * 256 + b1.toNat := by
  rw [← pairWord_toNat, divmod2025_value, tripleValue]

theorem pairValue_byte (b : Byte) : pairValue (byteC b) (byteD b) = b.toNat :=
  ((byteC_byteD_eq_iff b _ _).mp ⟨rfl, rfl⟩).symm

theorem highByte_pair (b0 b1 : Byte) : BitVec.ofNat 8 ((b0.toNat * 256 + b1.toNat) / 256) = b0 := by
  bv_omega

theorem lowByte_pair (b0 b1 : Byte) : BitVec.ofNat 8 ((b0.toNat * 256 + b1.toNat) % 256) = b1 := by
  bv_omega

theorem ofNat_byte (b : Byte) : BitVec.ofNat 8 (b.toNat % 256) = b := by
  bv_omega

/-- A value of at most 16 bits is that of its high byte and its low byte (R28, R29). -/
theorem pairWord_toNat_of_le {x : Nat} (h : x ≤ 65535) :
    (pairWord (BitVec.ofNat 8 (x / 256)) (BitVec.ofNat 8 (x % 256))).toNat = x := by
  rw [pairWord_toNat, BitVec.toNat_ofNat, BitVec.toNat_ofNat]
  omega

/-! ### `encode` -/

/-- The digits whose characters `encode` gives (R73). -/
def encodeDigits : List Byte → List Digit
  | [] => []
  | [b0] => [byteC b0, byteD b0]
  | b0 :: b1 :: rest =>
    (divmod2025 (pairWord b0 b1)).c :: (divmod2025 (pairWord b0 b1)).d :: (divmod2025 (pairWord b0 b1)).e ::
      encodeDigits rest

theorem refEncode_eq_map_encLut (m : List Byte) : refEncode m = (encodeDigits m).map encLut := by
  induction m using encodeDigits.induct with
  | case1 => rfl
  | case2 b0 => rfl
  | case3 b0 b1 rest ih => simp [refEncode, encodeDigits, ih]

/-! ### `decode` -/

/-- The digits of a string's characters; they count only when every character is valid (R74). -/
def charDigits (str : List Byte) : List Digit := str.map (fun ch => (decLut ch).v)

theorem refDecode_of_invalid {str : List Byte} (h : anyInvalid (str.map decLut) = true) :
    refDecode str = .error .invalidCharacter := if_pos h

theorem refDecode_of_valid {str : List Byte} (h : anyInvalid (str.map decLut) = false) :
    refDecode str = refChunks (charDigits str) := by
  rw [refDecode, h]
  rfl

/-- A string that decodes to bytes has no invalid character, and its digits decode to the bytes. -/
theorem valid_of_refDecode_eq_bytes {str bs : List Byte} (h : refDecode str = .bytes bs) :
    anyInvalid (str.map decLut) = false ∧ refChunks (charDigits str) = .bytes bs := by
  cases hvalid : anyInvalid (str.map decLut) with
  | false => exact ⟨rfl, (refDecode_of_valid hvalid).symm.trans h⟩
  | true => cases (refDecode_of_invalid hvalid).symm.trans h

/-- The lookups of a valid string all succeed, at its digits. -/
theorem decLut_of_valid {str : List Byte} (h : anyInvalid (str.map decLut) = false) :
    ∀ ch ∈ str, decLut ch = ⟨true, (decLut ch).v⟩ := by
  intro ch hch
  have hok : (decLut ch).ok = true := by
    simp only [anyInvalid, List.any_map, List.any_eq_false] at h
    simpa using h ch hch
  rw [← hok]

theorem map_decLut_of_valid {str : List Byte} (h : anyInvalid (str.map decLut) = false) :
    str.map decLut = (charDigits str).map (Lookup.mk true) := by
  rw [charDigits, List.map_map]
  exact List.map_congr_left (decLut_of_valid h)

theorem anyInvalid_map_mk (ds : List Digit) : anyInvalid (ds.map (Lookup.mk true)) = false := by
  simp [anyInvalid]

/-- Folding a valid string gives the characters of its digits (R56). -/
theorem map_fold_of_valid {str : List Byte} (h : anyInvalid (str.map decLut) = false) :
    str.map fold = (charDigits str).map encLut := by
  rw [charDigits, List.map_map]
  exact List.map_congr_left fun ch hch => ((decLut_eq_ok_iff ch _).mp (decLut_of_valid h ch hch)).symm

theorem refDecode_map_encLut (ds : List Digit) : refDecode (ds.map encLut) = refChunks ds := by
  have hlookups : (ds.map encLut).map decLut = ds.map (Lookup.mk true) := by simp
  have hdigits : charDigits (ds.map encLut) = ds := by simp [charDigits, Function.comp_def]
  rw [refDecode_of_valid (hlookups ▸ anyInvalid_map_mk ds), hdigits]

theorem refChunks_fitting {c d e : Digit} (h : tripleValue c d e ≤ 65535) (rest : List Digit) :
    refChunks (c :: d :: e :: rest) = (refChunks rest).prepend
      [BitVec.ofNat 8 (tripleValue c d e / 256), BitVec.ofNat 8 (tripleValue c d e % 256)] :=
  if_neg (by omega)

theorem refChunks_overflowing {c d e : Digit} (h : 65535 < tripleValue c d e) (rest : List Digit) :
    refChunks (c :: d :: e :: rest) = .error .dataOverflow := if_pos h

/-- Digits that decode to bytes begin with a triple that fits, whose two bytes come first. -/
theorem refChunks_triple_eq_bytes {c d e : Digit} {rest : List Digit} {bs : List Byte}
    (h : refChunks (c :: d :: e :: rest) = .bytes bs) :
    tripleValue c d e ≤ 65535 ∧ ∃ out, refChunks rest = .bytes out ∧
      bs = BitVec.ofNat 8 (tripleValue c d e / 256) :: BitVec.ofNat 8 (tripleValue c d e % 256) :: out := by
  obtain hfit | hover := le_or_gt (tripleValue c d e) 65535
  · refine ⟨hfit, ?_⟩
    rw [refChunks_fitting hfit] at h
    cases hrest : refChunks rest with
    | bytes out =>
      rw [hrest] at h
      cases h
      exact ⟨out, rfl, rfl⟩
    | error e => cases hrest ▸ h
  · cases (refChunks_overflowing hover rest).symm.trans h

/-- Decoding the digits of a message gives the message: each group of digits has the value of its bytes (R81). -/
theorem refChunks_encodeDigits (m : List Byte) : refChunks (encodeDigits m) = .bytes m := by
  induction m using encodeDigits.induct with
  | case1 => rfl
  | case2 b0 =>
    rw [encodeDigits, refChunks, pairValue_byte, ofNat_byte]
  | case3 b0 b1 rest ih =>
    have hfit : b0.toNat * 256 + b1.toNat ≤ 65535 := by omega
    rw [← tripleValue_divmod2025] at hfit
    rw [encodeDigits, refChunks_fitting hfit, ih, tripleValue_divmod2025, highByte_pair, lowByte_pair]
    rfl

/-! ### Re-encoding -/

/-- The digits behind the triples, when they are two, have the value of a byte (R86). -/
def TrailingPairFits : List Digit → Prop
  | [] => True
  | [_] => True
  | [c, d] => pairValue c d ≤ 255
  | _ :: _ :: _ :: rest => TrailingPairFits rest

/-- The trailing pair is the one behind a whole number of triples. -/
theorem trailingPairFits_iff (ds : List Digit) :
    TrailingPairFits ds ↔
      ∀ (front : List Digit) (c d : Digit), ds = front ++ [c, d] → front.length % 3 = 0 → pairValue c d ≤ 255 := by
  induction ds using TrailingPairFits.induct with
  | case1 => simp [TrailingPairFits]
  | case2 v =>
    refine iff_of_true trivial fun front c d h => ?_
    have hlen := congrArg List.length h
    simp at hlen
  | case3 c d =>
    refine ⟨fun hfit front c' d' h _ => ?_, fun h => h [] c d rfl rfl⟩
    obtain rfl : front = [] := by simpa using congrArg List.length h
    cases h
    exact hfit
  | case4 x y z rest ih =>
    refine ih.trans ⟨fun hfit front c d h hlen => ?_, fun hfit front c d h hlen => ?_⟩
    · match front, h, hlen with
      | x :: y :: z :: front, h, hlen =>
        simp only [List.length_cons] at hlen
        simp only [List.cons_append, List.cons.injEq] at h
        obtain ⟨-, -, -, h⟩ := h
        exact hfit front c d h (by omega)
    · exact hfit (x :: y :: z :: front) c d (by simp [h]) (by simp only [List.length_cons]; omega)

/-- The same of the characters of a valid string, whose digits are the ones they stand for. -/
theorem trailingPairFits_charDigits_iff {str : List Byte} (hvalid : anyInvalid (str.map decLut) = false) :
    TrailingPairFits (charDigits str) ↔
      ∀ (front : List Byte) (ch0 ch1 : Byte) (c d : Nat), str = front ++ [ch0, ch1] → front.length % 3 = 0 →
        DigitOf ch0 c → DigitOf ch1 d → c + 45 * d ≤ 255 := by
  rw [trailingPairFits_iff]
  constructor
  · rintro h front ch0 ch1 _ _ rfl hlen h0 h1
    obtain ⟨c, rfl, l0⟩ := (digitOf_iff_decLut _ _).mp h0
    obtain ⟨d, rfl, l1⟩ := (digitOf_iff_decLut _ _).mp h1
    exact h (charDigits front) c d (by simp [charDigits, l0, l1]) (by simpa [charDigits] using hlen)
  · intro h front c d hsplit hlen
    obtain ⟨chars, tail, rfl, rfl, htail⟩ := List.map_eq_append_iff.mp hsplit
    obtain ⟨ch0, tail1, rfl, rfl, htail1⟩ := List.map_eq_cons_iff.mp htail
    obtain ⟨ch1, tail2, rfl, rfl, htail2⟩ := List.map_eq_cons_iff.mp htail1
    obtain rfl := List.map_eq_nil_iff.mp htail2
    have hdigit : ∀ ch ∈ chars ++ [ch0, ch1], DigitOf ch (decLut ch).v := fun ch hch =>
      (digitOf_iff_decLut _ _).mpr ⟨_, rfl, decLut_of_valid hvalid ch hch⟩
    exact h chars ch0 ch1 _ _ rfl (by simpa using hlen) (hdigit ch0 (by simp)) (hdigit ch1 (by simp))

/-- Digits that decode come back from their bytes exactly when a trailing pair did not wrap around at 256 (R86). -/
theorem encodeDigits_eq_iff {ds : List Digit} {bs : List Byte} (h : refChunks ds = .bytes bs) :
    encodeDigits bs = ds ↔ TrailingPairFits ds := by
  induction ds using TrailingPairFits.induct generalizing bs with
  | case1 =>
    cases h
    exact iff_of_true rfl trivial
  | case2 v => cases h
  | case3 c d =>
    cases h
    have hbyte := byteC_byteD_eq_iff (BitVec.ofNat 8 (pairValue c d % 256)) c d
    simp only [encodeDigits, List.cons.injEq, and_true, hbyte, TrailingPairFits, BitVec.toNat_ofNat]
    omega
  | case4 c d e rest ih =>
    obtain ⟨hfit, out, hrest, rfl⟩ := refChunks_triple_eq_bytes h
    have hdigits := (divmod2025_eq_iff _ c d e).mpr (pairWord_toNat_of_le hfit)
    simp only [encodeDigits, hdigits, List.cons.injEq, true_and, TrailingPairFits, ih hrest]

end Sys2Proof.Machine

end

section
/-!
The beats of a message and of a string: their words, and the lists of beats that keep the host's duty (R75, R77).
-/

namespace Sys2Proof

/-! ### The host's duty -/

theorem encodeDuty_encodeBeats (m : List Byte) : encodeDuty (Machine.encodeBeats m) = true := by
  induction m using Machine.encodeBeats.induct with
  | case1 => rfl
  | case2 b0 => rfl
  | case3 b0 b1 rest ih => exact ih

theorem exists_encodeBeats_of_encodeDuty {beats : List Instr} (hwritten : ∀ i ∈ beats, i.written = true)
    (h : encodeDuty beats = true) : ∃ m, beats = Machine.encodeBeats m := by
  induction beats using encodeDuty.induct with
  | case1 => exact ⟨[], rfl⟩
  | case2 b0 x1 =>
    obtain rfl : x1 = 0 := by simpa [Instr.written] using hwritten
    exact ⟨[b0], rfl⟩
  | case3 b0 b1 rest ih =>
    obtain ⟨m, rfl⟩ := ih (fun i hi => hwritten i (.tail _ hi)) h
    exact ⟨b0 :: b1 :: m, rfl⟩
  | case4 beats => simp [encodeDuty] at h

/-- A frame is one `DEC0` with `last`, or chunks of which the last one closes it. -/
theorem decodeDuty_iff (beats : List Instr) :
    decodeDuty beats = true ↔ (∃ x0 x1 x2, beats = [.dec0 true x0 x1 x2]) ∨ decodeDutyChunks beats = true := by
  unfold decodeDuty
  split
  next last x0 x1 x2 => cases last <;> simp [decodeDutyChunks]
  next hne => exact (or_iff_right fun ⟨x0, x1, x2, h⟩ => hne true x0 x1 x2 h).symm

theorem decodeDutyChunks_cons_dec3 (last : Bool) (ch0 ch1 ch2 : Byte) {rest : List Instr} (h : rest ≠ []) :
    decodeDutyChunks (.dec3 last ch0 ch1 ch2 :: rest) = (!last && decodeDutyChunks rest) := by
  cases rest with
  | nil => exact absurd rfl h
  | cons i rest => rfl

theorem decodeChunkBeats_ne_nil {str : List Byte} (h : str ≠ []) : Machine.decodeChunkBeats str ≠ [] := by
  match str, h with
  | [_], _ => exact List.cons_ne_nil _ _
  | [_, _], _ => exact List.cons_ne_nil _ _
  | _ :: _ :: _ :: _, _ => exact List.cons_ne_nil _ _

theorem decodeDutyChunks_decodeChunkBeats {str : List Byte} (h : str ≠ []) :
    decodeDutyChunks (Machine.decodeChunkBeats str) = true := by
  induction str using Machine.decodeChunkBeats.induct with
  | case1 => exact absurd rfl h
  | case2 ch0 => rfl
  | case3 ch0 ch1 => rfl
  | case4 ch0 ch1 ch2 rest ih =>
    cases rest with
    | nil => rfl
    | cons ch rest =>
      have hne : ch :: rest ≠ [] := List.cons_ne_nil ch rest
      rw [Machine.decodeChunkBeats, decodeDutyChunks_cons_dec3 _ _ _ _ (decodeChunkBeats_ne_nil hne), ih hne]
      rfl

theorem exists_decodeChunkBeats_of_decodeDutyChunks {beats : List Instr} (hwritten : ∀ i ∈ beats, i.written = true)
    (h : decodeDutyChunks beats = true) : ∃ str, str ≠ [] ∧ beats = Machine.decodeChunkBeats str := by
  induction beats using decodeDutyChunks.induct with
  | case1 last ch0 x1 x2 =>
    obtain ⟨rfl, rfl⟩ : x1 = 0 ∧ x2 = 0 := by simpa [Instr.written] using hwritten
    obtain rfl : last = true := h
    exact ⟨[ch0], List.cons_ne_nil _ _, rfl⟩
  | case2 last ch0 ch1 x2 =>
    obtain rfl : x2 = 0 := by simpa [Instr.written] using hwritten
    obtain rfl : last = true := h
    exact ⟨[ch0, ch1], List.cons_ne_nil _ _, rfl⟩
  | case3 last ch0 ch1 ch2 =>
    obtain rfl : last = true := h
    exact ⟨[ch0, ch1, ch2], List.cons_ne_nil _ _, rfl⟩
  | case4 last ch0 ch1 ch2 rest hrest ih =>
    rw [decodeDutyChunks_cons_dec3 _ _ _ _ hrest, Bool.and_eq_true, Bool.not_eq_true'] at h
    obtain ⟨rfl, hrest⟩ := h
    obtain ⟨str, hstr, rfl⟩ := ih (fun i hi => hwritten i (.tail _ hi)) hrest
    refine ⟨ch0 :: ch1 :: ch2 :: str, List.cons_ne_nil _ _, ?_⟩
    rw [Machine.decodeChunkBeats, List.isEmpty_eq_false_iff.mpr hstr]
  | case5 beats => simp [decodeDutyChunks] at h

theorem decodeBeats_of_ne_nil {str : List Byte} (h : str ≠ []) :
    Machine.decodeBeats str = Machine.decodeChunkBeats str :=
  if_neg (by simpa using h)

theorem decodeDuty_decodeBeats (str : List Byte) : decodeDuty (Machine.decodeBeats str) = true := by
  by_cases h : str = []
  · subst h
    rfl
  · rw [decodeBeats_of_ne_nil h, decodeDuty_iff]
    exact .inr (decodeDutyChunks_decodeChunkBeats h)

theorem exists_decodeBeats_of_decodeDuty {beats : List Instr} (hwritten : ∀ i ∈ beats, i.written = true)
    (h : decodeDuty beats = true) : ∃ str, beats = Machine.decodeBeats str := by
  obtain ⟨x0, x1, x2, rfl⟩ | hchunks := (decodeDuty_iff beats).mp h
  · obtain ⟨⟨rfl, rfl⟩, rfl⟩ : (x0 = 0 ∧ x1 = 0) ∧ x2 = 0 := by simpa [Instr.written] using hwritten
    exact ⟨[], rfl⟩
  · obtain ⟨str, hstr, rfl⟩ := exists_decodeChunkBeats_of_decodeDutyChunks hwritten hchunks
    exact ⟨str, (decodeBeats_of_ne_nil hstr).symm⟩

namespace Machine

/-! ### Words -/

section Words

variable (last : Bool) (ch0 ch1 ch2 : Byte) (rest : List Instr)

@[simp] theorem encWords_nil : encWords [] = [] := rfl

@[simp] theorem decWords_nil : decWords [] = [] := rfl

@[simp] theorem encWords_cons_enc1 : encWords (.enc1 ch0 ch1 :: rest) = packEib false ch0 ch1 :: encWords rest := rfl

@[simp] theorem encWords_cons_enc2 : encWords (.enc2 ch0 ch1 :: rest) = packEib true ch0 ch1 :: encWords rest := rfl

@[simp] theorem decWords_cons_dec0 :
    decWords (.dec0 last ch0 ch1 ch2 :: rest) = packDib last 0#2 ch0 ch1 ch2 :: decWords rest := rfl

@[simp] theorem decWords_cons_dec1 :
    decWords (.dec1 last ch0 ch1 ch2 :: rest) = packDib last 1#2 ch0 ch1 ch2 :: decWords rest := rfl

@[simp] theorem decWords_cons_dec2 :
    decWords (.dec2 last ch0 ch1 ch2 :: rest) = packDib last 2#2 ch0 ch1 ch2 :: decWords rest := rfl

@[simp] theorem decWords_cons_dec3 :
    decWords (.dec3 last ch0 ch1 ch2 :: rest) = packDib last 3#2 ch0 ch1 ch2 :: decWords rest := rfl

end Words

/-! ### The beat functions on laid-out words -/

section Packed

variable (last : Bool) (ff : FrameFlags) (ch0 ch1 ch2 : Byte)

@[simp] theorem encBeat_packEib_single : encBeat (packEib false ch0 ch1) = enc1Word ch0 := by
  rw [encBeat_single (eibTwo_packEib _ _ _), eibB0_packEib]

@[simp] theorem encBeat_packEib_pair : encBeat (packEib true ch0 ch1) = enc2Word ch0 ch1 := by
  rw [encBeat_pair (eibTwo_packEib _ _ _), eibB0_packEib, eibB1_packEib]

@[simp] theorem decBeat_packDib_none : decBeat ff (packDib last 0#2 ch0 ch1 ch2) = dec0Result last ff := by
  rw [decBeat_none (dibCount_packDib ..), dibLast_packDib]

@[simp] theorem decBeat_packDib_single : decBeat ff (packDib last 1#2 ch0 ch1 ch2) = dec1Result last ch0 ff := by
  rw [decBeat_single (dibCount_packDib ..), dibLast_packDib, dibCh0_packDib]

@[simp] theorem decBeat_packDib_pair : decBeat ff (packDib last 2#2 ch0 ch1 ch2) = dec2Result last ch0 ch1 ff := by
  rw [decBeat_pair (dibCount_packDib ..), dibLast_packDib, dibCh0_packDib, dibCh1_packDib]

@[simp] theorem decBeat_packDib_triple :
    decBeat ff (packDib last 3#2 ch0 ch1 ch2) = dec3Result last ch0 ch1 ch2 ff := by
  rw [decBeat_triple (dibCount_packDib ..), dibLast_packDib, dibCh0_packDib, dibCh1_packDib, dibCh2_packDib]

/-- An encoder output word with `last` above it is a decoder input word with the same lanes (R40, R41, R81). -/
theorem ofBool_append_packEob (n : BitVec 2) : BitVec.ofBool last ++ packEob n ch0 ch1 ch2 = packDib last n ch0 ch1 ch2 := by
  refine BitVec.eq_of_getLsbD_eq fun i hi => ?_
  simp only [packEob, packDib, BitVec.getLsbD_append]
  grind

end Packed

end Machine

end Sys2Proof

end

section
/-!
What a frame of decoder beats reports (R65, R67, R78): its flags are the OR of its beats' flags, and the code of the flags of a
string is the code of its `decode`; a frame of a string that decodes passes every byte.
-/

namespace Sys2Proof.Machine

open Sys2Proof.Claims

/-! ### Valid, fitting lanes in a clean frame -/

theorem dec2Result_clean {ch0 ch1 : Byte} {c d : Digit} (h0 : decLut ch0 = ⟨true, c⟩) (h1 : decLut ch1 = ⟨true, d⟩)
    (last : Bool) :
    dec2Result last ch0 ch1 0#3 =
      (dob last 1#2 0#3 0#3 0#2 (BitVec.ofNat 8 (pairValue c d % 256)) 0#8, 0#3) := by
  rw [dec2Result, h0, h1, beatFlags_valid_pair, finishBeat_clean]
  rfl

theorem dec3Result_clean {ch0 ch1 ch2 : Byte} {c d e : Digit} (h0 : decLut ch0 = ⟨true, c⟩)
    (h1 : decLut ch1 = ⟨true, d⟩) (h2 : decLut ch2 = ⟨true, e⟩) (hfit : tripleValue c d e ≤ 65535) (last : Bool) :
    dec3Result last ch0 ch1 ch2 0#3 =
      (dob last 2#2 0#3 0#3 0#2 (BitVec.ofNat 8 (tripleValue c d e / 256))
        (BitVec.ofNat 8 (tripleValue c d e % 256)), 0#3) := by
  rw [dec3Result, h0, h1, h2, beatFlags_fitting_triple hfit, finishBeat_clean]
  rfl

theorem dobBytes_dob (last : Bool) (n : BitVec 2) (bf ff : FrameFlags) (code : ErrorCode) (y0 y1 : Byte) :
    dobBytes (dob last n bf ff code y0 y1) = [y0, y1].take n.toNat := by
  have hpack : dob last n bf ff code y0 y1 = packDob last n bf ff code y0 y1 := rfl
  rw [hpack, dobBytes, dobByte0_packDob, dobByte1_packDob, dobCount_packDob]

/-! ### Flags and code of a frame -/

/-- The flags that the used lanes of a word raise (R65). -/
def laneFlags (w : Dib) : FrameFlags := beatFlags ((usedLanes w).map decLut)

/-- Every decoder beat ends in the shared tail with the flags of its used lanes (R65, R67). -/
theorem decBeat_eq_finishBeat_laneFlags (ff : FrameFlags) (w : Dib) :
    ∃ bytes, decBeat ff w = finishBeat (dibLast w) (laneFlags w) bytes ff := by
  obtain ⟨bf, bytes, hbeat⟩ := decBeat_eq_finishBeat ff w
  have hflags := dobBeatFlags_decBeat ff w
  rw [hbeat, finishBeat_beatFlags] at hflags
  rw [laneFlags, ← hflags]
  exact ⟨bytes, hbeat⟩

theorem decRun_beatFlags (ff : FrameFlags) (ws : List Dib) :
    (decRun ff ws).1.map dobBeatFlags = ws.map laneFlags := by
  induction ws generalizing ff with
  | nil => rfl
  | cons w ws ih => rw [decRun, List.map_cons, List.map_cons, ih, dobBeatFlags_decBeat, laneFlags]

/-- While no beat closes the frame, its flags gather in `FF` (R20, R67). -/
theorem decRun_ff_of_open (ff : FrameFlags) {ws : List Dib} (hopen : ∀ w ∈ ws, dibLast w = false) :
    (decRun ff ws).2 = (ws.map laneFlags).foldl (fun f g => f ||| g) ff := by
  induction ws generalizing ff with
  | nil => rfl
  | cons w ws ih =>
    rw [List.forall_mem_cons] at hopen
    obtain ⟨hw, hopen⟩ := hopen
    obtain ⟨bytes, hbeat⟩ := decBeat_eq_finishBeat_laneFlags ff w
    rw [decRun, hbeat, hw, finishBeat_ff, leaveError_open, ih _ hopen]
    rfl

/-- The closing beat of a frame reports the flags of the whole frame and their code, and clears `FF` (R21, R67, R78). -/
theorem decRun_frame {front : List Dib} {w : Dib} (hopen : ∀ v ∈ front, dibLast v = false) (hlast : dibLast w = true)
    {flags : FrameFlags} (hflags : flags = ((front ++ [w]).map laneFlags).foldl (fun f g => f ||| g) 0#3) :
    (decRun 0#3 (front ++ [w])).2 = 0#3 ∧
      ∃ o, (decRun 0#3 (front ++ [w])).1.getLast? = some o ∧ dobLast o = true ∧ dobFrameFlags o = flags ∧
        dobCode o = prio flags := by
  refine ⟨decRun_ff_of_last hlast _ _, (decBeat (decRun 0#3 front).2 w).1, ?_, ?_⟩
  · rw [decRun_append]
    exact List.getLast?_concat
  · obtain ⟨bytes, hbeat⟩ := decBeat_eq_finishBeat_laneFlags (decRun 0#3 front).2 w
    rw [List.map_append, List.foldl_append, ← decRun_ff_of_open _ hopen] at hflags
    rw [hbeat, finishBeat_last, finishBeat_frameFlags, finishBeat_code, hflags]
    exact ⟨hlast, rfl, rfl⟩

theorem decWords_decodeChunkBeats_eq_frame {str : List Byte} (h : str ≠ []) :
    ∃ front w, decWords (decodeChunkBeats str) = front ++ [w] ∧ (∀ v ∈ front, dibLast v = false) ∧ dibLast w = true := by
  induction str using decodeChunkBeats.induct with
  | case1 => exact absurd rfl h
  | case2 ch0 => exact ⟨[], _, rfl, by simp, dibLast_packDib ..⟩
  | case3 ch0 ch1 => exact ⟨[], _, rfl, by simp, dibLast_packDib ..⟩
  | case4 ch0 ch1 ch2 rest ih =>
    cases rest with
    | nil => exact ⟨[], _, rfl, by simp, dibLast_packDib ..⟩
    | cons ch rest =>
      obtain ⟨front, w, hwords, hopen, hlast⟩ := ih (List.cons_ne_nil ch rest)
      refine ⟨packDib false 3#2 ch0 ch1 ch2 :: front, w, ?_, by simpa using hopen, hlast⟩
      rw [decodeChunkBeats, decWords_cons_dec3, hwords]
      rfl

/-- The words of a string are a frame: the last one, and no other, has `last` set (R77). -/
theorem decWords_decodeBeats_eq_frame (str : List Byte) :
    ∃ front w, decWords (decodeBeats str) = front ++ [w] ∧ (∀ v ∈ front, dibLast v = false) ∧ dibLast w = true := by
  by_cases h : str = []
  · subst h
    exact ⟨[], _, rfl, by simp, dibLast_packDib ..⟩
  · rw [decodeBeats_of_ne_nil h]
    exact decWords_decodeChunkBeats_eq_frame h

/-! ### Flags and code of a string -/

/-- The flags that the chunks of a string raise, from the lookups of its characters (R65, R77). -/
def stringFlags : List Lookup → FrameFlags
  | [] => 0#3
  | [l0] => beatFlags [l0]
  | [l0, l1] => beatFlags [l0, l1]
  | l0 :: l1 :: l2 :: rest => beatFlags [l0, l1, l2] ||| stringFlags rest

theorem foldl_laneFlags_decodeChunkBeats (f : FrameFlags) (str : List Byte) :
    ((decWords (decodeChunkBeats str)).map laneFlags).foldl (fun f g => f ||| g) f =
      f ||| stringFlags (str.map decLut) := by
  induction str using decodeChunkBeats.induct generalizing f with
  | case1 => exact (BitVec.or_zero).symm
  | case2 ch0 => simp [decodeChunkBeats, stringFlags, laneFlags, usedLanes]
  | case3 ch0 ch1 => simp [decodeChunkBeats, stringFlags, laneFlags, usedLanes]
  | case4 ch0 ch1 ch2 rest ih =>
    rw [decodeChunkBeats, decWords_cons_dec3, List.map_cons, List.foldl_cons, ih]
    simp [stringFlags, laneFlags, usedLanes, BitVec.or_assoc]

theorem foldl_laneFlags_decodeBeats (str : List Byte) :
    ((decWords (decodeBeats str)).map laneFlags).foldl (fun f g => f ||| g) 0#3 = stringFlags (str.map decLut) := by
  by_cases h : str = []
  · subst h
    decide
  · rw [decodeBeats_of_ne_nil h, foldl_laneFlags_decodeChunkBeats, BitVec.zero_or]

theorem flagIc_or (f g : FrameFlags) : flagIc (f ||| g) = (flagIc f || flagIc g) := BitVec.getLsbD_or

theorem anyInvalid_append (ls ks : List Lookup) : anyInvalid (ls ++ ks) = (anyInvalid ls || anyInvalid ks) :=
  List.any_append

theorem flagIc_beatFlags (used : List Lookup) : flagIc (beatFlags used) = anyInvalid used :=
  flagIc_packFlags ..

/-- Some chunk raises `ic` exactly when some character is invalid (R90). -/
theorem flagIc_stringFlags (ls : List Lookup) : flagIc (stringFlags ls) = anyInvalid ls := by
  induction ls using stringFlags.induct with
  | case1 => rfl
  | case2 l0 => exact flagIc_beatFlags _
  | case3 l0 l1 => exact flagIc_beatFlags _
  | case4 l0 l1 l2 rest ih =>
    rw [stringFlags, flagIc_or, flagIc_beatFlags, ih, ← anyInvalid_append]
    rfl

theorem prio_of_ic {f : FrameFlags} (h : flagIc f = true) : prio f = codeIc := if_pos h

/-- DataOverflow ranks before everything but InvalidCharacter (R94). -/
theorem prio_do_or {f : FrameFlags} (h : flagIc f = false) : prio (0b100#3 ||| f) = codeDo := by
  have hic : flagIc (0b100#3 ||| f) = false := by rw [flagIc_or, h]; rfl
  have hdo : flagDo (0b100#3 ||| f) = true := by simp [flagDo]
  rw [prio, hic, hdo]
  rfl

theorem code_prepend (bs : List Byte) (r : DecodeResult) : (r.prepend bs).code = r.code := by
  cases r <;> rfl

/-- Without invalid characters, the flags of the chunks rank as `decode` meets the errors (R74, R94). -/
theorem prio_stringFlags_valid (ds : List Digit) : prio (stringFlags (ds.map (Lookup.mk true))) = (refChunks ds).code := by
  induction ds using refChunks.induct with
  | case1 => rfl
  | case2 c => rw [List.map_singleton, stringFlags, beatFlags_valid_single]; rfl
  | case3 c d => exact congrArg prio (beatFlags_valid_pair c d)
  | case4 c d e rest hover =>
    have hic : flagIc (stringFlags (rest.map (Lookup.mk true))) = false := by
      rw [flagIc_stringFlags, anyInvalid_map_mk]
    rw [refChunks_overflowing hover, List.map_cons, List.map_cons, List.map_cons, stringFlags,
      beatFlags_overflowing_triple hover, prio_do_or hic]
    rfl
  | case5 c d e rest hfit ih =>
    rw [Nat.not_lt] at hfit
    rw [refChunks_fitting hfit, code_prepend, ← ih, List.map_cons, List.map_cons, List.map_cons, stringFlags,
      beatFlags_fitting_triple hfit, BitVec.zero_or]

/-- The flags of a string rank as the code of its `decode` (R78). -/
theorem prio_stringFlags (str : List Byte) : prio (stringFlags (str.map decLut)) = (refDecode str).code := by
  cases h : anyInvalid (str.map decLut) with
  | true => rw [refDecode_of_invalid h, prio_of_ic (by rw [flagIc_stringFlags, h])]; rfl
  | false => rw [refDecode_of_valid h, map_decLut_of_valid h, prio_stringFlags_valid]

/-! ### The bytes and the result of a string's frame -/

theorem decRun_bytes_of_refChunks {str bs : List Byte} (hvalid : ∀ ch ∈ str, decLut ch = ⟨true, (decLut ch).v⟩)
    (h : refChunks (charDigits str) = .bytes bs) :
    (decRun 0#3 (decWords (decodeChunkBeats str))).1.flatMap dobBytes = bs := by
  induction str using decodeChunkBeats.induct generalizing bs with
  | case1 =>
    cases h
    rfl
  | case2 ch0 => cases h
  | case3 ch0 ch1 =>
    cases h
    simp only [List.forall_mem_cons] at hvalid
    obtain ⟨h0, h1, -⟩ := hvalid
    simp [decodeChunkBeats, decRun, dec2Result_clean h0 h1, dobBytes_dob]
  | case4 ch0 ch1 ch2 rest ih =>
    simp only [List.forall_mem_cons] at hvalid
    obtain ⟨h0, h1, h2, hvalid⟩ := hvalid
    obtain ⟨hfit, out, hrest, rfl⟩ := refChunks_triple_eq_bytes h
    simp [decodeChunkBeats, decRun, dec3Result_clean h0 h1 h2 hfit, dobBytes_dob, ih hvalid hrest]

/-- The frame of a string that decodes passes its bytes (R78). -/
theorem frameOut_bytes {str bs : List Byte} (h : refDecode str = .bytes bs) : (frameOut str).flatMap dobBytes = bs := by
  obtain ⟨hvalid, hchunks⟩ := valid_of_refDecode_eq_bytes h
  by_cases hstr : str = []
  · subst hstr
    cases h
    decide
  · rw [frameOut, decodeBeats_of_ne_nil hstr]
    exact decRun_bytes_of_refChunks (decLut_of_valid hvalid) hchunks

/-- The last beat of a string's frame reports the flags of its chunks and the code of its `decode` (R78). -/
theorem frameOut_getLast? (str : List Byte) :
    (decRun 0#3 (decWords (decodeBeats str))).2 = 0#3 ∧
      ∃ o, (frameOut str).getLast? = some o ∧ dobLast o = true ∧ dobFrameFlags o = stringFlags (str.map decLut) ∧
        dobCode o = (refDecode str).code := by
  obtain ⟨front, w, hwords, hopen, hlast⟩ := decWords_decodeBeats_eq_frame str
  have hflags := foldl_laneFlags_decodeBeats str
  rw [hwords] at hflags
  rw [frameOut, hwords, ← prio_stringFlags]
  exact decRun_frame hopen hlast hflags.symm

theorem frameOut_beatFlags (str : List Byte) :
    ((frameOut str).map dobBeatFlags).foldl (fun f g => f ||| g) 0#3 = stringFlags (str.map decLut) := by
  rw [frameOut, decRun_beatFlags, foldl_laneFlags_decodeBeats]

/-- Every error has a code of its own, and none has the code of success (R89). -/
theorem codeError_code (e : DecodeError) :
    (DecodeResult.error e).code ≠ codeOk ∧ codeError (DecodeResult.error e).code = e := by
  cases e <;> decide

theorem hostDecode_frameOut (str : List Byte) : hostDecode (frameOut str) = some (refDecode str) := by
  obtain ⟨-, o, ho, hlast, -, hcode⟩ := frameOut_getLast? str
  simp only [hostDecode, ho, hlast, hcode, if_true]
  cases h : refDecode str with
  | bytes bs => rw [frameOut_bytes h]; rfl
  | error e =>
    obtain ⟨hne, herror⟩ := codeError_code e
    rw [if_neg hne, herror]

/-! ### Letter case -/

@[simp] theorem fold_fold (ch : Byte) : fold (fold ch) = fold ch := by
  refine BitVec.eq_of_toNat_eq ?_
  rw [fold_toNat, upper, fold_toNat, upper]
  split_ifs <;> omega

@[simp] theorem decLut_fold (ch : Byte) : decLut (fold ch) = decLut ch := by
  simp only [decLut, fold_fold]

theorem refDecode_map_fold (str : List Byte) : refDecode (str.map fold) = refDecode str := by
  simp [refDecode, Function.comp_def]

theorem decRun_decodeChunkBeats_map_fold (ff : FrameFlags) (str : List Byte) :
    decRun ff (decWords (decodeChunkBeats (str.map fold))) = decRun ff (decWords (decodeChunkBeats str)) := by
  induction str using decodeChunkBeats.induct generalizing ff with
  | case1 => rfl
  | case2 ch0 => simp [decodeChunkBeats, decRun, dec1Result]
  | case3 ch0 ch1 => simp [decodeChunkBeats, decRun, dec2Result]
  | case4 ch0 ch1 ch2 rest ih => simp [decodeChunkBeats, decRun, dec3Result, ih]

theorem frameOut_map_fold (str : List Byte) : frameOut (str.map fold) = frameOut str := by
  by_cases h : str = []
  · subst h
    rfl
  · rw [frameOut, frameOut, decodeBeats_of_ne_nil h, decodeBeats_of_ne_nil (by simpa using h),
      decRun_decodeChunkBeats_map_fold]

end Sys2Proof.Machine

end

section
/-!
What a message comes to at the encoder: the characters and the counts of its output beats, what those words give at the decoder's
input, and what has arrived once a unit holds nothing (R36, R75, R81, R82).
-/

namespace Sys2Proof.Machine

open Sys2Proof.Claims

theorem flatMap_eobChars_encodeBeats (m : List Byte) :
    (encWords (encodeBeats m)).flatMap (fun w => eobChars (encBeat w)) = refEncode m := by
  induction m using encodeBeats.induct with
  | case1 => rfl
  | case2 b0 => simp [encodeBeats, refEncode, eobChars_enc1Word]
  | case3 b0 b1 rest ih => simp [encodeBeats, refEncode, eobChars_enc2Word, ih]

theorem length_refEncode (m : List Byte) : (refEncode m).length = 3 * (m.length / 2) + 2 * (m.length % 2) := by
  induction m using refEncode.induct with
  | case1 => rfl
  | case2 b0 => simp [refEncode]
  | case3 b0 b1 rest ih =>
    simp only [refEncode, List.length_cons, ih]
    omega

/-- A pair of bytes more is one beat of three characters more (R82). -/
theorem map_eobCount_encodeBeats (m : List Byte) :
    (encWords (encodeBeats m)).map (fun w => eobCount (encBeat w)) =
      List.replicate (m.length / 2) 3#2 ++ List.replicate (m.length % 2) 2#2 := by
  induction m using encodeBeats.induct with
  | case1 => rfl
  | case2 b0 => simp [encodeBeats, eobCount_enc1Word]
  | case3 b0 b1 rest ih =>
    have hhalf : (rest.length + 1 + 1) / 2 = rest.length / 2 + 1 := by omega
    have hparity : (rest.length + 1 + 1) % 2 = rest.length % 2 := by omega
    rw [encodeBeats, encWords_cons_enc2, List.map_cons, ih, encBeat_packEib_pair, eobCount_enc2Word, List.length_cons,
      List.length_cons, hhalf, hparity, List.replicate_succ, List.cons_append]

/-- The characters of a byte pair, as a decoder beat, give the pair back (R81). -/
theorem decBeat_enc2Word (last : Bool) (b0 b1 : Byte) :
    decBeat 0#3 (BitVec.ofBool last ++ enc2Word b0 b1) = (dob last 2#2 0#3 0#3 0#2 b0 b1, 0#3) := by
  have hfit := tripleValue_divmod2025 b0 b1
  rw [enc2Word, ofBool_append_packEob, decBeat_packDib_triple,
    dec3Result_clean (decLut_encLut _) (decLut_encLut _) (decLut_encLut _) (by omega), hfit, highByte_pair, lowByte_pair]

/-- The characters of a single byte, as a decoder beat, give the byte back (R81). -/
theorem decBeat_enc1Word (last : Bool) (b0 : Byte) :
    decBeat 0#3 (BitVec.ofBool last ++ enc1Word b0) = (dob last 1#2 0#3 0#3 0#2 b0 0#8, 0#3) := by
  rw [enc1Word, ofBool_append_packEob, decBeat_packDib_pair, dec2Result_clean (decLut_encLut _) (decLut_encLut _),
    pairValue_byte, ofNat_byte]

/-! ### Units that hold nothing -/

variable {s : State}

theorem enc_delivered_of_empty (h : s.Inv) (hq : s.enc.queue = []) : s.enc.delivered = s.enc.accepted.map encBeat := by
  rw [← h.enc_stream, StreamUnit.held, hq, List.map_nil, List.append_nil]

theorem dec_delivered_of_empty (h : s.Inv) (hq : s.dec.queue = []) :
    s.dec.delivered = (decRun 0#3 s.dec.accepted).1 ∧ s.ff = (decRun 0#3 s.dec.accepted).2 := by
  rw [h.dec_stream, StreamUnit.held, hq, List.map_nil, List.append_nil]
  exact ⟨rfl, rfl⟩

end Sys2Proof.Machine

end

section
/-!
The statements about whole messages and strings (43_sequences.md).
-/

open Sys2Proof Sys2Proof.Machine Sys2Proof.Claims

/-- Settles O14: what was delivered is a beat function's output, whose used lanes were read from the table. -/
theorem encoderOutputStaysInAlphabet : Obligations.EncoderOutputStaysInAlphabet := by
  intro p evs n t hp hreached o ho ch hch
  have hout : o ∈ t.enc.accepted.map encBeat := (hreached.inv hp).enc_stream ▸ List.mem_append_left _ ho
  obtain ⟨w, -, rfl⟩ := List.mem_map.mp hout
  obtain ⟨v, rfl⟩ := exists_encLut_of_mem_eobChars hch
  exact ⟨v.val, v.isLt, encLut_eq_charAt v⟩

/-- Settles O26, by induction on the message's groups of bytes. -/
theorem encoderBeatsComputeEncode : Obligations.EncoderBeatsComputeEncode := flatMap_eobChars_encodeBeats

/-- Settles O27: the closing beat reports the flags of all chunks, which rank as `decode` meets the errors; without errors every
beat passes its bytes. -/
theorem decoderFrameComputesDecode : Obligations.DecoderFrameComputesDecode := by
  intro str
  obtain ⟨hff, o, ho, -, hflags, hcode⟩ := frameOut_getLast? str
  refine ⟨?_, fun bs => frameOut_bytes, ?_, hff, hostDecode_frameOut str⟩
  · rw [ho, Option.map_some, hcode]
  · rw [ho, Option.map_some, hflags, frameOut_beatFlags]

/-- Settles O28: the digits of a message decode to it, and the two tables are inverse on digits. -/
theorem decodeOfEncodeIsTheMessage : Obligations.DecodeOfEncodeIsTheMessage := by
  intro m
  rw [refEncode_eq_map_encLut, refDecode_map_encLut, refChunks_encodeDigits]

/-- Settles O29: the encoder's word with `last` is a decoder beat whose digits have the value of the group's bytes. -/
theorem encoderOutputFeedsDecoder : Obligations.EncoderOutputFeedsDecoder := by
  intro last w
  constructor
  · intro htwo
    rw [encBeat_pair htwo, decBeat_enc2Word]
  · intro htwo
    rw [encBeat_single htwo, decBeat_enc1Word]

/-- Settles O30, by induction on the message's groups of bytes; the second formula is arithmetic on the first. -/
theorem encodedLengthLaw : Obligations.EncodedLengthLaw := by
  intro m
  have hlen := length_refEncode m
  exact ⟨hlen, by omega, map_eobCount_encodeBeats m⟩

/-- Settles O31: folding twice is folding once, so no lookup sees the difference. -/
theorem decodingIgnoresCase : Obligations.DecodingIgnoresCase := fun str =>
  ⟨refDecode_map_fold str, frameOut_map_fold str⟩

/-- Settles O33: the encoded bytes and the folded string are characters of digits, which agree unless a trailing pair wrapped
around at 256. -/
theorem canonicalStringsReencode : Obligations.CanonicalStringsReencode := by
  intro str bs h
  obtain ⟨hvalid, hchunks⟩ := valid_of_refDecode_eq_bytes h
  rw [refEncode_eq_map_encLut, map_fold_of_valid hvalid, (List.map_injective_iff.mpr encLut_injective).eq_iff,
    encodeDigits_eq_iff hchunks, trailingPairFits_charDigits_iff hvalid]

/-- Settles O34: each duty's cases are those of the list of beats, with the ignored lanes zero as written. -/
theorem dutifulBeatsAreMessages : Obligations.DutifulBeatsAreMessages := by
  intro beats hwritten
  refine ⟨⟨exists_encodeBeats_of_encodeDuty hwritten, ?_⟩, ⟨exists_decodeBeats_of_decodeDuty hwritten, ?_⟩⟩
  · rintro ⟨m, rfl⟩
    exact encodeDuty_encodeBeats m
  · rintro ⟨str, rfl⟩
    exact decodeDuty_decodeBeats str

/-- Settles O56: a reached encoder that holds nothing has delivered the output of every beat of the message. -/
theorem encodedMessageArrives : Obligations.EncodedMessageArrives := by
  intro p evs n t m hp hreached haccepted hqueue
  rw [enc_delivered_of_empty (hreached.inv hp) hqueue, haccepted, List.flatMap_map, flatMap_eobChars_encodeBeats]

/-- Settles O57: a reached decoder that holds nothing has delivered the whole frame of the string. -/
theorem decodedMessageArrives : Obligations.DecodedMessageArrives := by
  intro p evs n t str hp hreached haccepted hqueue
  obtain ⟨hdelivered, hff⟩ := dec_delivered_of_empty (hreached.inv hp) hqueue
  rw [haccepted] at hdelivered hff
  obtain ⟨hcode, hbytes, -, hclear, hhost⟩ := decoderFrameComputesDecode str
  rw [hdelivered, hff]
  exact ⟨hcode, hclear, hbytes, hhost⟩

/-- Settles O32: evaluation of the closed terms, and the one output beat of `DEC0.L` from clear flags. -/
theorem emptyInputGivesEmptyOutput : Obligations.EmptyInputGivesEmptyOutput := by
  have hbeat : dec0Result true 0#3 = (dob true 0#2 0#3 0#3 0#2 0#8 0#8, 0#3) := dec0Result_eq true 0#3
  refine ⟨rfl, rfl, rfl, rfl, ?_⟩
  simp [frameOut, decodeBeats, decRun, hbeat]

end

section
/-!
What the code of a frame is for given flags (R94), and what the two events after a gating do (R100, R102).
-/

namespace Sys2Proof.Machine

open Sys2Proof.Claims

/-! ### The code ranks the flags -/

section Precedence

variable {f : FrameFlags}

theorem prioOf_of_ic (hic : f.getLsbD 0 = true) : prioOf f = 1#2 := if_pos hic

theorem prioOf_of_do (hic : f.getLsbD 0 = false) (hdo : f.getLsbD 2 = true) : prioOf f = 3#2 := by
  rw [prioOf, hic, hdo]
  rfl

theorem prioOf_of_il (hic : f.getLsbD 0 = false) (hdo : f.getLsbD 2 = false) (hil : f.getLsbD 1 = true) :
    prioOf f = 2#2 := by
  rw [prioOf, hic, hdo, hil]
  rfl

end Precedence

/-- The code of an output beat is `PRIO` of the frame flags in the same beat (R67, R94). -/
theorem dobCode_decBeat (ff : FrameFlags) (w : Dib) :
    dobCode (decBeat ff w).1 = prioOf (dobFrameFlags (decBeat ff w).1) := by
  obtain ⟨-, hflags, hcode, -⟩ := outputBeatReportsTheFrame ff w _ rfl
  rw [hcode, hflags]

/-! ### A gated unit -/

theorem core_run_succ_of_next {M : Host.Core} {k : Nat} {s m : M.State} (h : M.step s = .next m) :
    M.run (k + 1) s = M.run k m := by
  rw [Host.Core.run, h]

theorem core_run_one {M : Host.Core} (s : M.State) : M.run 1 s = M.step s := by
  rw [Host.Core.run]
  cases M.step s <;> rfl

section Gated

variable {s : State} {rest : List HostEvent}

theorem encEdge_unreset {p : Pins Eib} (hp : p.rst = false) (hl : s.enc.live = false) :
    encEdge p s = .refused (.beforeReset .encoder) := by
  simp [encEdge, hp, hl]

theorem decEdge_unreset {p : Pins Dib} (hp : p.rst = false) (hl : s.dec.live = false) :
    decEdge p s = .refused (.beforeReset .decoder) := by
  simp [decEdge, hp, hl]

theorem run_encGate_encEdge {p : Pins Eib} (hs : s.host = .encGate :: .encEdge p :: rest) :
    Host.Core.run Sys2Proof.core 2 s = encEdge p { s with host := rest, enc := s.enc.gate } :=
  (core_run_succ_of_next (M := Sys2Proof.core) (step_of_host_cons hs)).trans (core_run_one _)

theorem run_decGate_decEdge {p : Pins Dib} (hs : s.host = .decGate :: .decEdge p :: rest) :
    Host.Core.run Sys2Proof.core 2 s = decEdge p { s with host := rest, dec := s.dec.gate } :=
  (core_run_succ_of_next (M := Sys2Proof.core) (step_of_host_cons hs)).trans (core_run_one _)

end Gated

end Sys2Proof.Machine

end

section
/-!
The statements about errors and about gated units (60_exceptions.md).
-/

open Sys2Proof.Machine Sys2Proof.Claims

/-- Settles O23: the code of a beat is `PRIO` of its frame flags, taken here at each of its ranks. -/
theorem frameCodeFollowsPrecedence : Obligations.FrameCodeFollowsPrecedence := by
  rintro ff w f rfl
  rw [dobCode_decBeat]
  refine ⟨prioOf_of_ic, prioOf_of_do, prioOf_of_il, ?_⟩
  intro hnone
  rw [hnone]
  rfl

/-- Settles O40: the edge after a gating finds a unit that has not been reset, which only `rst = 1` gives a meaning. -/
theorem gatedUnitMustBeReset : Obligations.GatedUnitMustBeReset := by
  constructor
  · intro s p rest hs
    rw [run_encGate_encEdge hs]
    exact ⟨fun hp => encEdge_unreset hp rfl, fun hp => ⟨_, encEdge_reset hp, rfl, rfl⟩⟩
  · intro s p rest hs
    rw [run_decGate_decEdge hs]
    exact ⟨fun hp => decEdge_unreset hp rfl, fun hp => ⟨_, decEdge_reset hp, rfl, rfl, rfl⟩⟩

end

section
/-!
One edge of a unit of latency 1 or more, as one function of the unit, for both units at once: what leaves, what stays, whether the
offered beat is taken (R103, R104, R105); and the edge of a unit of latency 0 (R106).
-/

namespace Sys2Proof.Machine

open Sys2Proof.Claims

/-! ### The ports -/

section Ports

variable {α β : Type} {lat depth : Nat} {p : Pins α} {u : StreamUnit α β}

theorem outValid_of_rst (hp : p.rst = true) : u.outValid lat p = false := by
  simp [StreamUnit.outValid, hp]

theorem inReady_of_rst (hp : p.rst = true) : u.inReady lat depth p = false := by
  simp [StreamUnit.inReady, hp]

theorem headRipe_iff {q : List (InFlight β)} : headRipe lat q ↔ ∃ b r, q = b :: r ∧ lat - 1 ≤ b.age := by
  cases q <;> simp [headRipe]

theorem outValid_iff_headRipe (hlat : lat ≠ 0) :
    u.outValid lat p = true ↔ p.rst = false ∧ headRipe lat u.queue := by
  rw [outValid_queued hlat, headRipe_iff]

theorem inReady_iff (hlat : lat ≠ 0) :
    u.inReady lat depth p = true ↔
      p.rst = false ∧ (u.queue.length < depth ∨ (u.outValid lat p = true ∧ p.outReady = true)) := by
  simp [StreamUnit.inReady, hlat]

theorem outBeat_of_cons {comb free : β} {b : InFlight β} {q : List (InFlight β)} (hlat : lat ≠ 0)
    (hv : u.outValid lat p = true) (hq : u.queue = b :: q) : u.outBeat lat comb free p = b.word := by
  simp [StreamUnit.outBeat, hv, hlat, hq]

theorem held_head_of_outValid {comb free : β} (hlat : lat ≠ 0) (hv : u.outValid lat p = true) :
    u.held.head? = some (u.outBeat lat comb free p) := by
  obtain ⟨-, b, q, hq, -⟩ := (outValid_queued hlat).1 hv
  rw [outBeat_of_cons hlat hv hq, StreamUnit.held, hq]
  rfl

theorem outBeat_comb {comb free : β} (hp : p.rst = false) (hv : p.inValid = true) :
    u.outBeat 0 comb free p = comb := by
  simp [StreamUnit.outBeat, outValid_comb hp, hv]

theorem ports_comb (p : Pins α) (u : StreamUnit α β) :
    u.outValid 0 p = (!p.rst && p.inValid) ∧ u.inReady 0 depth p = (!p.rst && p.outReady) :=
  ⟨rfl, rfl⟩

end Ports

/-! ### What an edge does to a unit -/

section Unit

variable {α β : Type}

/-- The head of the queue, when the host takes it at this edge (R103, R105). -/
def StreamUnit.leaving (lat : Nat) (p : Pins α) (u : StreamUnit α β) : List (InFlight β) :=
  if u.outValid lat p && p.outReady then u.queue.take 1 else []

/-- What the queue still holds after the output transfer of this edge. -/
def StreamUnit.staying (lat : Nat) (p : Pins α) (u : StreamUnit α β) : List (InFlight β) :=
  if u.outValid lat p && p.outReady then u.queue.tail else u.queue

/-- The offered beat finds a place after the output transfer of this edge. -/
def StreamUnit.takes (lat depth : Nat) (p : Pins α) (u : StreamUnit α β) : Bool :=
  p.inValid && decide ((u.staying lat p).length < depth)

/-- A unit of latency 1 or more after an edge with `rst = 0`, where `o` is the output word of the offered beat. `encEdge_eq_edge`
and `decEdge_eq_edge` tie it to the model. -/
def StreamUnit.edge (lat depth : Nat) (o : β) (p : Pins α) (u : StreamUnit α β) : StreamUnit α β where
  live := u.live
  queue := older (u.staying lat p) ++ if u.takes lat depth p then [⟨o, 0⟩] else []
  accepted := u.accepted ++ if u.takes lat depth p then [p.inBeat] else []
  delivered := u.delivered ++ (u.leaving lat p).map (fun b => b.word)
  cycle := u.cycle + 1

/-- A unit of latency 0 after an edge with `rst = 0`: the beat goes through when both sides agree (R106). `encEdge_eq_pass` and
`decEdge_eq_pass` tie it to the model. -/
def StreamUnit.pass (o : β) (p : Pins α) (u : StreamUnit α β) : StreamUnit α β where
  live := u.live
  queue := older u.queue
  accepted := u.accepted ++ if p.inValid && p.outReady then [p.inBeat] else []
  delivered := u.delivered ++ if p.inValid && p.outReady then [o] else []
  cycle := u.cycle + 1

variable {lat depth : Nat} {o : β} {p : Pins α} {u : StreamUnit α β}

@[simp] theorem pass_accepted : (u.pass o p).accepted =
    u.accepted ++ if p.inValid && p.outReady then [p.inBeat] else [] := rfl

@[simp] theorem pass_delivered : (u.pass o p).delivered =
    u.delivered ++ if p.inValid && p.outReady then [o] else [] := rfl

@[simp] theorem pass_held : (u.pass o p).held = u.held := tick_held u

theorem pass_of_transfer (h : (p.inValid && p.outReady) = true) : u.tick.accept 0 p.inBeat o = u.pass o p := by
  simp [StreamUnit.accept, StreamUnit.tick, StreamUnit.pass, older, h]

theorem pass_of_no_transfer (h : (p.inValid && p.outReady) = false) : u.tick = u.pass o p := by
  simp [StreamUnit.tick, StreamUnit.pass, older, h]

@[simp] theorem edge_live : (u.edge lat depth o p).live = u.live := rfl

@[simp] theorem edge_queue : (u.edge lat depth o p).queue =
    older (u.staying lat p) ++ if u.takes lat depth p then [⟨o, 0⟩] else [] := rfl

@[simp] theorem edge_accepted : (u.edge lat depth o p).accepted =
    u.accepted ++ if u.takes lat depth p then [p.inBeat] else [] := rfl

@[simp] theorem edge_delivered : (u.edge lat depth o p).delivered =
    u.delivered ++ (u.leaving lat p).map (fun b => b.word) := rfl

theorem leaving_append_staying (lat : Nat) (p : Pins α) (u : StreamUnit α β) :
    u.leaving lat p ++ u.staying lat p = u.queue := by
  unfold StreamUnit.leaving StreamUnit.staying
  split
  · rw [← List.drop_one, List.take_append_drop]
  · rfl

theorem leaving_staying_of_ripe (hlat : lat ≠ 0) (hp : p.rst = false)
    (h : headRipe lat u.queue ∧ p.outReady = true) :
    u.leaving lat p = u.queue.take 1 ∧ u.staying lat p = u.queue.tail := by
  have hv := (outValid_iff_headRipe hlat).2 ⟨hp, h.1⟩
  simp [StreamUnit.leaving, StreamUnit.staying, hv, h.2]

theorem leaving_staying_of_not_ripe (hlat : lat ≠ 0) (h : ¬ (headRipe lat u.queue ∧ p.outReady = true)) :
    u.leaving lat p = [] ∧ u.staying lat p = u.queue := by
  have hv : (u.outValid lat p && p.outReady) = false := by
    rw [← Bool.not_eq_true, Bool.and_eq_true, outValid_iff_headRipe hlat]
    exact fun hboth => h ⟨hboth.1.2, hboth.2⟩
  simp [StreamUnit.leaving, StreamUnit.staying, hv]

/-- The head that leaves makes a place, even in a full unit (R103). -/
theorem takes_of_ripe (hlat : lat ≠ 0) (hp : p.rst = false) (h : headRipe lat u.queue ∧ p.outReady = true)
    (hbound : u.queue.length ≤ depth) : u.takes lat depth p = p.inValid := by
  obtain ⟨b, q, hq, -⟩ := headRipe_iff.1 h.1
  have hplace : u.queue.tail.length < depth := by
    rw [hq] at hbound ⊢
    exact hbound
  simp only [StreamUnit.takes, (leaving_staying_of_ripe hlat hp h).2, hplace, decide_true, Bool.and_true]

theorem takes_of_not_ripe (hlat : lat ≠ 0) (h : ¬ (headRipe lat u.queue ∧ p.outReady = true)) :
    u.takes lat depth p = (p.inValid && decide (u.queue.length < depth)) := by
  rw [StreamUnit.takes, (leaving_staying_of_not_ripe hlat h).2]

/-- A place that the output transfer leaves or makes is announced by `in_ready` (R104). -/
theorem inReady_of_place (hlat : lat ≠ 0) (hp : p.rst = false) (h : (u.staying lat p).length < depth) :
    u.inReady lat depth p = true := by
  rw [inReady_iff hlat, outValid_iff_headRipe hlat]
  by_cases hripe : headRipe lat u.queue ∧ p.outReady = true
  · exact ⟨hp, .inr ⟨⟨hp, hripe.1⟩, hripe.2⟩⟩
  · rw [(leaving_staying_of_not_ripe hlat hripe).2] at h
    exact ⟨hp, .inl h⟩

theorem takes_iff : u.takes lat depth p = true ↔ p.inValid = true ∧ (u.staying lat p).length < depth := by
  simp [StreamUnit.takes]

theorem outTransfer_eq (hlat : lat ≠ 0) (comb free : β) :
    u.outTransfer lat comb free p =
      { u with queue := u.staying lat p, delivered := u.delivered ++ (u.leaving lat p).map (fun b => b.word) } := by
  obtain ⟨h, hno⟩ | ⟨-, hr, hv, b, q, hq, -, h⟩ := outTransfer_cases lat comb free p u
  · rw [h]
    have hno : (u.outValid lat p && p.outReady) = false := by simpa [hlat] using hno
    simp [StreamUnit.staying, StreamUnit.leaving, hno]
  · rw [h]
    simp [StreamUnit.staying, StreamUnit.leaving, hr, hv, hq]

/-- An edge that takes the beat is the drain and then the taking (R103). -/
theorem edge_of_takes (hlat : lat ≠ 0) (comb free : β) (h : u.takes lat depth p = true) :
    ((u.outTransfer lat comb free p).tick).accept lat p.inBeat o = u.edge lat depth o p := by
  rw [outTransfer_eq hlat]
  simp [StreamUnit.accept, StreamUnit.tick, StreamUnit.edge, older, hlat, h]

/-- An edge that takes no beat is the drain alone. -/
theorem edge_of_not_takes (hlat : lat ≠ 0) (comb free : β) (h : u.takes lat depth p = false) :
    (u.outTransfer lat comb free p).tick = u.edge lat depth o p := by
  rw [outTransfer_eq hlat]
  simp [StreamUnit.tick, StreamUnit.edge, older, h]

/-- A head that is offered and not taken is offered in the next cycle, the same word (R105). -/
theorem edge_holds_offer {comb comb' free free' : β} {p' : Pins α} (hlat : lat ≠ 0) (hv : u.outValid lat p = true)
    (hr : p.outReady = false) (hp' : p'.rst = false) :
    (u.edge lat depth o p).outValid lat p' = true ∧
      (u.edge lat depth o p).outBeat lat comb' free' p' = u.outBeat lat comb free p := by
  obtain ⟨-, b, q, hq, hage⟩ := (outValid_queued hlat).1 hv
  obtain ⟨r, hhead⟩ : ∃ r, (u.edge lat depth o p).queue = ⟨b.word, b.age + 1⟩ :: r := by
    simp [StreamUnit.staying, hr, hq, older]
  have hv' := (outValid_queued (p := p') hlat).2 ⟨hp', _, r, hhead, Nat.le_succ_of_le hage⟩
  exact ⟨hv', by rw [outBeat_of_cons hlat hv' hhead, outBeat_of_cons hlat hv hq]⟩

theorem hasRoom_drain (hlat : lat ≠ 0) (comb free : β) (hv : p.inValid = true) :
    ((u.outTransfer lat comb free p).tick).hasRoom lat depth = u.takes lat depth p := by
  rw [outTransfer_eq hlat]
  simp [StreamUnit.hasRoom, StreamUnit.takes, hlat, hv]

end Unit

/-! ### An edge of the machine -/

section Edge

variable {s : State}

/-- Everything an edge with `rst = 0` does at latency 1 or more (R103 to R105). -/
theorem encEdge_eq_edge {p : Pins Eib} (hp : p.rst = false) (hl : s.enc.live = true) (hlat : s.params.latEnc ≠ 0) :
    encEdge p s =
      .next { s with enc := s.enc.edge s.params.latEnc s.params.depthEnc (encBeat p.inBeat) p } := by
  have hl' : (s.encDrain p).enc.live = true := by simpa using hl
  cases ht : s.enc.takes s.params.latEnc s.params.depthEnc p with
  | true =>
    obtain ⟨hv, hplace⟩ := takes_iff.1 ht
    rw [encEdge_taken hp hl hv (inReady_of_place hlat hp hplace), exec_decode_eib,
      acceptEnc_room hl' ((hasRoom_drain hlat _ _ hv).trans ht), ← edge_of_takes hlat _ _ ht]
    rfl
  | false =>
    have hdrain : s.encDrain p =
        { s with enc := s.enc.edge s.params.latEnc s.params.depthEnc (encBeat p.inBeat) p } := by
      rw [← edge_of_not_takes hlat _ _ ht]
      rfl
    rw [← hdrain]
    cases hi : p.inValid && s.encInReady p with
    | false => exact encEdge_not_taken hp hl hi
    | true =>
      obtain ⟨hv, hr⟩ := Bool.and_eq_true_iff.1 hi
      rw [encEdge_taken hp hl hv hr, exec_decode_eib, acceptEnc_full hl' ((hasRoom_drain hlat _ _ hv).trans ht)]

/-- The same for the decoder; `FF` changes with the beat taken (R105). -/
theorem decEdge_eq_edge {p : Pins Dib} (hp : p.rst = false) (hl : s.dec.live = true) (hlat : s.params.latDec ≠ 0) :
    decEdge p s =
      .next { s with
        dec := s.dec.edge s.params.latDec s.params.depthDec (decBeat s.ff p.inBeat).1 p
        ff := if s.dec.takes s.params.latDec s.params.depthDec p then (decBeat s.ff p.inBeat).2 else s.ff } := by
  have hl' : (s.decDrain p).dec.live = true := by simpa using hl
  cases ht : s.dec.takes s.params.latDec s.params.depthDec p with
  | true =>
    obtain ⟨hv, hplace⟩ := takes_iff.1 ht
    rw [decEdge_taken hp hl hv (inReady_of_place hlat hp hplace), exec_decode_dib,
      acceptDec_room hl' ((hasRoom_drain hlat _ _ hv).trans ht), ← edge_of_takes hlat _ _ ht]
    rfl
  | false =>
    have hdrain : s.decDrain p =
        { s with dec := s.dec.edge s.params.latDec s.params.depthDec (decBeat s.ff p.inBeat).1 p } := by
      rw [← edge_of_not_takes hlat _ _ ht]
      rfl
    rw [if_neg Bool.false_ne_true, ← hdrain]
    cases hi : p.inValid && s.decInReady p with
    | false => exact decEdge_not_taken hp hl hi
    | true =>
      obtain ⟨hv, hr⟩ := Bool.and_eq_true_iff.1 hi
      rw [decEdge_taken hp hl hv hr, exec_decode_dib, acceptDec_full hl' ((hasRoom_drain hlat _ _ hv).trans ht)]

/-- Everything an edge with `rst = 0` does at latency 0 (R106). -/
theorem encEdge_eq_pass {p : Pins Eib} (hp : p.rst = false) (hl : s.enc.live = true) (hlat : s.params.latEnc = 0) :
    encEdge p s = .next { s with enc := s.enc.pass (encBeat p.inBeat) p } := by
  have hdrain : s.encDrain p = { s with enc := s.enc.tick } := by
    rw [State.encDrain, hlat, StreamUnit.outTransfer_comb]
  have hready : s.encInReady p = p.outReady := by rw [State.encInReady, hlat, inReady_comb hp]
  cases h : p.inValid && p.outReady with
  | true =>
    obtain ⟨hv, hr⟩ := Bool.and_eq_true_iff.1 h
    rw [encEdge_taken hp hl hv (hready.trans hr), exec_decode_eib, hdrain,
      acceptEnc_room (s := { s with enc := s.enc.tick }) hl (hasRoom_iff.2 (.inl hlat)), hlat, pass_of_transfer h]
  | false => rw [encEdge_not_taken hp hl (hready ▸ h), hdrain, pass_of_no_transfer h]

/-- The same for the decoder; `FF` changes with the beat that goes through (R106). -/
theorem decEdge_eq_pass {p : Pins Dib} (hp : p.rst = false) (hl : s.dec.live = true) (hlat : s.params.latDec = 0) :
    decEdge p s =
      .next { s with
        dec := s.dec.pass (decBeat s.ff p.inBeat).1 p
        ff := if p.inValid && p.outReady then (decBeat s.ff p.inBeat).2 else s.ff } := by
  have hdrain : s.decDrain p = { s with dec := s.dec.tick } := by
    rw [State.decDrain, hlat, StreamUnit.outTransfer_comb]
  have hready : s.decInReady p = p.outReady := by rw [State.decInReady, hlat, inReady_comb hp]
  cases h : p.inValid && p.outReady with
  | true =>
    obtain ⟨hv, hr⟩ := Bool.and_eq_true_iff.1 h
    rw [decEdge_taken hp hl hv (hready.trans hr), exec_decode_dib, hdrain,
      acceptDec_room (s := { s with dec := s.dec.tick }) hl (hasRoom_iff.2 (.inl hlat)), hlat, pass_of_transfer h]
    rfl
  | false =>
    rw [decEdge_not_taken hp hl (hready ▸ h), hdrain, pass_of_no_transfer h]
    rfl

theorem encEdge_live {p : Pins Eib} {t : State} (hp : p.rst = false) (h : encEdge p s = .next t) : s.enc.live = true := by
  obtain ⟨hrst, -⟩ | ⟨-, hl, -⟩ | ⟨-, hl, -⟩ := encEdge_cases h
  · simp [hp] at hrst
  · exact hl
  · exact hl

theorem decEdge_live {p : Pins Dib} {t : State} (hp : p.rst = false) (h : decEdge p s = .next t) : s.dec.live = true := by
  obtain ⟨hrst, -⟩ | ⟨-, hl, -⟩ | ⟨-, hl, -⟩ := decEdge_cases h
  · simp [hp] at hrst
  · exact hl
  · exact hl

end Edge

end Sys2Proof.Machine

end

section
/-!
A unit from which the host takes every output beat as it is offered: it is always ready, and each beat leaves `LAT` edges after it
came (R109, R110).
-/

namespace Sys2Proof.Machine

open Sys2Proof.Claims

section Flow

variable {α β : Type} {lat depth : Nat} {o : β} {p : Pins α} {u : StreamUnit α β}

/-- Strictly falling ages below `n` leave place for at most `n` beats. -/
theorem agesFall.length_le {q : List (InFlight β)} (hq : agesFall q) {n : Nat} (hn : ∀ b ∈ q, b.age < n) :
    q.length ≤ n := by
  induction q generalizing n with
  | nil => exact Nat.zero_le n
  | cons b r ih =>
    obtain ⟨hb, hr⟩ := List.pairwise_cons.1 hq
    have hlen : r.length ≤ b.age := ih hr hb
    have hage : b.age < n := hn b List.mem_cons_self
    rw [List.length_cons]
    omega

/-- At an edge with `out_ready = 1` exactly the beat that has come to the last stage leaves: behind it all are younger, and
before its turn none is that old. -/
theorem StreamUnit.Flowing.ages_leaving_staying (h : u.Flowing lat) (hlat : lat ≠ 0) (hp : p.rst = false)
    (hready : p.outReady = true) :
    (∀ b ∈ u.leaving lat p, b.age + 1 = lat) ∧ ∀ b ∈ u.staying lat p, b.age + 1 < lat := by
  obtain ⟨hfall, hyoung⟩ := h
  by_cases hripe : headRipe lat u.queue
  · obtain ⟨b, q, hq, hage⟩ := headRipe_iff.1 hripe
    obtain ⟨hleaving, hstaying⟩ := leaving_staying_of_ripe hlat hp ⟨hripe, hready⟩
    rw [hq] at hfall hyoung hleaving hstaying
    obtain ⟨hhead, -⟩ := List.pairwise_cons.1 hfall
    have hb : b.age < lat := hyoung b List.mem_cons_self
    rw [hleaving, hstaying]
    constructor
    · simp only [List.take_succ_cons, List.take_zero, List.mem_singleton, forall_eq]
      omega
    · intro c hc
      have := hhead c hc
      omega
  · obtain ⟨hleaving, hstaying⟩ := leaving_staying_of_not_ripe (p := p) hlat (fun hboth => hripe hboth.1)
    rw [hleaving, hstaying]
    refine ⟨by simp, ?_⟩
    cases hq : u.queue with
    | nil => simp
    | cons b q =>
      rw [hq] at hfall
      obtain ⟨hhead, -⟩ := List.pairwise_cons.1 hfall
      have hb : ¬ lat - 1 ≤ b.age := fun hage => hripe (headRipe_iff.2 ⟨b, q, hq, hage⟩)
      simp only [List.mem_cons, forall_eq_or_imp]
      refine ⟨by omega, fun c hc => ?_⟩
      have := hhead c hc
      omega

theorem staying_sublist (lat : Nat) (p : Pins α) (u : StreamUnit α β) : (u.staying lat p).Sublist u.queue := by
  rw [← leaving_append_staying lat p u]
  exact List.sublist_append_right _ _

/-- There is always a place: what stays is younger than `LAT - 1` edges, and `DEPTH` is at least `LAT` (R5). -/
theorem StreamUnit.Flowing.inReady_eq_true (h : u.Flowing lat) (hlat : lat ≠ 0) (hdepth : lat ≤ depth) (hp : p.rst = false)
    (hready : p.outReady = true) : u.inReady lat depth p = true := by
  have hfall : agesFall (u.staying lat p) := h.1.sublist (staying_sublist lat p u)
  have hlen : (u.staying lat p).length ≤ lat - 1 := by
    refine hfall.length_le fun b hb => ?_
    have := (h.ages_leaving_staying hlat hp hready).2 b hb
    omega
  exact inReady_of_place hlat hp (by omega)

theorem StreamUnit.Flowing.flowing_edge (h : u.Flowing lat) (hlat : lat ≠ 0) (hp : p.rst = false) (hready : p.outReady = true) :
    (u.edge lat depth o p).Flowing lat := by
  have hfall : agesFall (u.staying lat p) := h.1.sublist (staying_sublist lat p u)
  have hage := (h.ages_leaving_staying hlat hp hready).2
  rw [StreamUnit.Flowing, edge_queue]
  constructor
  · refine List.pairwise_append.2 ⟨?_, ?_, ?_⟩
    · simpa [older, agesFall, List.pairwise_map] using hfall
    · split <;> simp
    · split <;> simp [older]
  · intro b hb
    rcases List.mem_append.1 hb with hold | hnew
    · obtain ⟨c, hc, rfl⟩ := List.mem_map.1 hold
      exact hage c hc
    · split at hnew
      · rw [List.mem_singleton.1 hnew]
        exact Nat.pos_of_ne_zero hlat
      · simp at hnew

theorem StreamUnit.Flowing.leaving_eq_filter (h : u.Flowing lat) (hlat : lat ≠ 0) (hp : p.rst = false)
    (hready : p.outReady = true) : u.leaving lat p = u.queue.filter (fun b => b.age + 1 = lat) := by
  obtain ⟨hleaving, hstaying⟩ := h.ages_leaving_staying hlat hp hready
  rw [← leaving_append_staying lat p u, List.filter_append, List.filter_eq_self.2 (by simpa using hleaving),
    List.filter_eq_nil_iff.2 (fun b hb => by simpa using (hstaying b hb).ne), List.append_nil]

/-- The words of a queue that leave within `k` edges, when the host takes output at all of them. -/
def due (lat k : Nat) (q : List (InFlight β)) : List β :=
  (q.filter (fun b => lat ≤ b.age + k)).map (fun b => b.word)

theorem due_append (k : Nat) (q r : List (InFlight β)) : due lat k (q ++ r) = due lat k q ++ due lat k r := by
  simp [due]

theorem due_older (k : Nat) (q : List (InFlight β)) : due lat k (older q) = due lat (k + 1) q := by
  simp [due, older, List.filter_map, Function.comp_def, Nat.add_right_comm _ 1 k, Nat.add_assoc]

theorem due_eq_words {k : Nat} {q : List (InFlight β)} (h : ∀ b ∈ q, lat ≤ b.age + k) :
    due lat k q = q.map (fun b => b.word) := by
  rw [due, List.filter_eq_self.2 (by simpa using h)]

theorem due_zero {q : List (InFlight β)} (h : ∀ b ∈ q, b.age < lat) : due lat 0 q = [] := by
  rw [due, List.filter_eq_nil_iff.2 (by simpa using h), List.map_nil]

theorem due_all (u : StreamUnit α β) (lat : Nat) : due lat lat u.queue = u.held :=
  due_eq_words fun b _ => Nat.le_add_left lat b.age

/-- One edge moves forward what is due, and fewer than `LAT` edges do not reach the beat it took. -/
theorem StreamUnit.Flowing.edge_due (h : u.Flowing lat) (hlat : lat ≠ 0) (hp : p.rst = false) (hready : p.outReady = true)
    {k : Nat} (hk : k < lat) :
    (u.edge lat depth o p).delivered ++ due lat k (u.edge lat depth o p).queue =
      u.delivered ++ due lat (k + 1) u.queue := by
  have hnew : due lat k (if u.takes lat depth p then [(⟨o, 0⟩ : InFlight β)] else []) = [] := by
    split <;> simp [due, hk]
  have hleaving : due lat (k + 1) (u.leaving lat p) = (u.leaving lat p).map (fun b => b.word) := by
    refine due_eq_words fun b hb => ?_
    have := (h.ages_leaving_staying hlat hp hready).1 b hb
    omega
  calc (u.edge lat depth o p).delivered ++ due lat k (u.edge lat depth o p).queue
      = u.delivered ++ (due lat (k + 1) (u.leaving lat p) ++ due lat (k + 1) (u.staying lat p)) := by
        rw [edge_delivered, edge_queue, due_append, due_older, hnew, hleaving, List.append_nil, List.append_assoc]
    _ = u.delivered ++ due lat (k + 1) u.queue := by rw [← due_append, leaving_append_staying]

end Flow

theorem latency_le_depth {lat depth : Nat} (h : legalDepth lat depth = true) (hlat : lat ≠ 0) : lat ≤ depth := by
  simpa [legalDepth, hlat] using h

/-! ### A run of edges -/

section Run

variable {α β : Type}

/-- `step` runs the edges `mk p` of one unit, the part `view` of the state, as `StreamUnit.edge`, at latency `lat P` and some
depth. It holds of both units: `encRunsEdges` and `decRunsEdges`. -/
def RunsEdges (view : State → StreamUnit α β) (mk : Pins α → HostEvent) (lat : Params → Nat) : Prop :=
  ∀ (s : State) (p : Pins α) (rest : List HostEvent), (view s).live = true → lat s.params ≠ 0 → s.host = mk p :: rest →
    p.rst = false → ∃ t depth o, step s = .next t ∧ t.params = s.params ∧ t.host = rest ∧
      view t = (view s).edge (lat s.params) depth o p

theorem encRunsEdges : RunsEdges (fun s => s.enc) .encEdge Params.latEnc := fun s _ rest hl hlat hs hp =>
  ⟨_, _, _, (step_of_host_cons hs).trans (encEdge_eq_edge (s := { s with host := rest }) hp hl hlat), rfl, rfl, rfl⟩

theorem decRunsEdges : RunsEdges (fun s => s.dec) .decEdge Params.latDec := fun s _ rest hl hlat hs hp =>
  ⟨_, _, _, (step_of_host_cons hs).trans (decEdge_eq_edge (s := { s with host := rest }) hp hl hlat), rfl, rfl, rfl⟩

/-- Up to `LAT` edges with `out_ready = 1` deliver exactly what is due within them (R109). -/
theorem run_delivers_due {view : State → StreamUnit α β} {mk : Pins α → HostEvent} {lat : Params → Nat}
    (hrun : RunsEdges view mk lat) (pins : List (Pins α)) {s : State} {rest : List HostEvent}
    (hflow : (view s).Flowing (lat s.params)) (hl : (view s).live = true) (hlen : pins.length ≤ lat s.params)
    (hpins : ∀ p ∈ pins, p.rst = false ∧ p.outReady = true) (hs : s.host = pins.map mk ++ rest) :
    ∃ t, Host.Core.run Sys2Proof.core pins.length s = .next t ∧
      (view t).delivered = (view s).delivered ++ due (lat s.params) pins.length (view s).queue := by
  induction pins generalizing s with
  | nil => exact ⟨s, rfl, by rw [List.length_nil, due_zero hflow.2, List.append_nil]⟩
  | cons p pins ih =>
    obtain ⟨⟨hp, hready⟩, htail⟩ := List.forall_mem_cons.1 hpins
    have hk : pins.length < lat s.params := hlen
    have hlat : lat s.params ≠ 0 := by omega
    obtain ⟨m, depth, o, hstep, hparams, hhost, hview⟩ := hrun s p _ hl hlat hs hp
    have hflow' : (view m).Flowing (lat m.params) := by
      rw [hparams, hview]
      exact hflow.flowing_edge hlat hp hready
    obtain ⟨t, ht, hdelivered⟩ := ih hflow' (by rw [hview, edge_live, hl]) (hparams ▸ hk.le) htail hhost
    refine ⟨t, (core_run_succ_of_next (M := Sys2Proof.core) hstep).trans ht, ?_⟩
    rw [hdelivered, hparams, hview, hflow.edge_due hlat hp hready hk, List.length_cons]

end Run

end Sys2Proof.Machine

end

section
/-!
The statements about reset, the handshake and the hazards (70_reset_and_hazards.md).
-/

open Sys2Proof Sys2Proof.Machine Sys2Proof.Claims

/-- Settles O39: the edge is a reset, and with `rst = 1` both ports are 0. -/
theorem resetEdgeEmptiesTheUnit : Obligations.ResetEdgeEmptiesTheUnit := by
  constructor
  · intro s p rest hs hp
    exact ⟨inReady_of_rst hp, outValid_of_rst hp, _, (step_of_host_cons hs).trans (encEdge_reset hp),
      rfl, rfl, rfl, rfl, rfl, rfl, rfl⟩
  · intro s p rest hs hp
    exact ⟨inReady_of_rst hp, outValid_of_rst hp, _, (step_of_host_cons hs).trans (decEdge_reset hp),
      rfl, rfl, rfl, rfl, rfl, rfl, rfl⟩

/-- Settles O41, from the equations of one unit's ports. -/
theorem portsFollowTheirEquations : Obligations.PortsFollowTheirEquations := by
  constructor
  · intro s p _ hlat
    exact ⟨outValid_iff_headRipe hlat, inReady_iff hlat, held_head_of_outValid hlat⟩
  · intro s p _ hlat
    exact ⟨outValid_iff_headRipe hlat, inReady_iff hlat, held_head_of_outValid hlat⟩

/-- Settles O49, by the arm of each event. -/
theorem hostViolationsFaultByName : Obligations.HostViolationsFaultByName := by
  refine ⟨fun s rest hs => step_of_host_cons hs, fun s rest hs => step_of_host_cons hs, ?_, ?_⟩
  · intro s p rest hs
    rw [step_of_host_cons hs]
    exact ⟨fun hlat => if_pos hlat, fun hlat => applyEvent_encLoop (s := { s with host := rest }) hlat p⟩
  · intro s p rest hs
    rw [step_of_host_cons hs]
    exact ⟨fun hlat => if_pos hlat, fun hlat => applyEvent_decLoop (s := { s with host := rest }) hlat p⟩

/-- Settles O42: whether the head leaves decides what stays, and with the bound of the invariant whether the offered beat is
taken. -/
theorem encoderEdgeFollowsTheHandshake : Obligations.EncoderEdgeFollowsTheHandshake := by
  intro s p rest hinv hs hp hl hlat
  have hbound := hinv.enc_bounded.depth_bound
  refine ⟨_, (step_of_host_cons hs).trans (encEdge_eq_edge (s := { s with host := rest }) hp hl hlat), ?_, ?_,
    rfl, rfl, rfl, rfl⟩
  · intro hripe
    obtain ⟨hleaving, hstaying⟩ := leaving_staying_of_ripe hlat hp hripe
    have htakes := takes_of_ripe hlat hp hripe hbound
    simp +contextual [hleaving, hstaying, htakes, StreamUnit.held, List.map_take]
  · intro hripe
    obtain ⟨hleaving, hstaying⟩ := leaving_staying_of_not_ripe hlat hripe
    have htakes := takes_of_not_ripe (depth := s.params.depthEnc) hlat hripe
    refine ⟨by simp [hleaving], fun hv hroom => by simp [hstaying, htakes, hv, hroom], ?_⟩
    rintro (hv | hfull)
    · simp [hstaying, htakes, hv]
    · simp [hstaying, htakes, hfull]

/-- Settles O43, as for the encoder; `FF` changes under the same condition. -/
theorem decoderEdgeFollowsTheHandshake : Obligations.DecoderEdgeFollowsTheHandshake := by
  intro s p rest hinv hs hp hl hlat
  have hbound := hinv.dec_bounded.depth_bound
  refine ⟨_, (step_of_host_cons hs).trans (decEdge_eq_edge (s := { s with host := rest }) hp hl hlat), ?_, ?_,
    rfl, rfl, rfl⟩
  · intro hripe
    obtain ⟨hleaving, hstaying⟩ := leaving_staying_of_ripe hlat hp hripe
    have htakes := takes_of_ripe hlat hp hripe hbound
    simp +contextual [hleaving, hstaying, htakes, StreamUnit.held, List.map_take]
  · intro hripe
    obtain ⟨hleaving, hstaying⟩ := leaving_staying_of_not_ripe hlat hripe
    have htakes := takes_of_not_ripe (depth := s.params.depthDec) hlat hripe
    refine ⟨by simp [hleaving], fun hv hroom => by simp [hstaying, htakes, hv, hroom], ?_⟩
    rintro (hv | hfull)
    · simp [hstaying, htakes, hv]
    · simp [hstaying, htakes, hfull]

/-- Settles O44: at latency 0 each port is the other side's pin, and the edge passes the beat on or does nothing. -/
theorem combinationalUnitPassesStraightThrough : Obligations.CombinationalUnitPassesStraightThrough := by
  constructor
  · intro s p rest hs hp hl hlat
    refine ⟨fun q => ?_, fun hv => ?_, _,
      (step_of_host_cons hs).trans (encEdge_eq_pass (s := { s with host := rest }) hp hl hlat), rfl, rfl, pass_held, ?_, ?_⟩
    · rw [State.encOutValid, State.encInReady, hlat]
      exact ports_comb q s.enc
    · rw [State.encOutBeat, hlat, outBeat_comb hp hv]
    · rintro ⟨hv, hr⟩
      simp [hv, hr]
    · intro hno
      simp [hno]
  · intro s p rest hs hp hl hlat
    refine ⟨fun q => ?_, fun hv => ?_, _,
      (step_of_host_cons hs).trans (decEdge_eq_pass (s := { s with host := rest }) hp hl hlat), rfl, pass_held, ?_, ?_⟩
    · rw [State.decOutValid, State.decInReady, hlat]
      exact ports_comb q s.dec
    · rw [State.decOutBeat, hlat, outBeat_comb hp hv]
    · rintro ⟨hv, hr⟩
      simp [hv, hr]
    · intro hno
      simp [hno]

/-- Settles O45: a head that is offered and not taken is still the head after the edge, and older. -/
theorem offeredOutputBeatHolds : Obligations.OfferedOutputBeatHolds := by
  constructor
  · intro s t p p' rest hs hlat hv hr hstep hp'
    rw [step_of_host_cons hs] at hstep
    have hp : p.rst = false := ((outValid_iff_headRipe hlat).1 hv).1
    have hedge := encEdge_eq_edge (s := { s with host := rest }) hp (encEdge_live hp hstep) hlat
    cases hstep.symm.trans hedge
    exact edge_holds_offer hlat hv hr hp'
  · intro s t p p' rest hs hlat hv hr hstep hp'
    rw [step_of_host_cons hs] at hstep
    have hp : p.rst = false := ((outValid_iff_headRipe hlat).1 hv).1
    have hedge := decEdge_eq_edge (s := { s with host := rest }) hp (decEdge_live hp hstep) hlat
    cases hstep.symm.trans hedge
    exact edge_holds_offer hlat hv hr hp'

/-- Settles O58: the ages of a flowing unit leave a place, stay below the latency, and single out the beat that leaves. -/
theorem flowingUnitNeverStalls : Obligations.FlowingUnitNeverStalls := by
  constructor
  · intro s p rest hlegal hlat hflow hl hs hp hready
    have hdepth := latency_le_depth (s.params.legal_iff.1 hlegal).1 hlat
    refine ⟨hflow.inReady_eq_true hlat hdepth hp hready, _,
      (step_of_host_cons hs).trans (encEdge_eq_edge (s := { s with host := rest }) hp hl hlat),
      hflow.flowing_edge hlat hp hready, ?_⟩
    rw [edge_delivered, hflow.leaving_eq_filter hlat hp hready]
  · intro s p rest hlegal hlat hflow hl hs hp hready
    have hdepth := latency_le_depth (s.params.legal_iff.1 hlegal).2 hlat
    refine ⟨hflow.inReady_eq_true hlat hdepth hp hready, _,
      (step_of_host_cons hs).trans (decEdge_eq_edge (s := { s with host := rest }) hp hl hlat),
      hflow.flowing_edge hlat hp hready, ?_⟩
    rw [edge_delivered, hflow.leaving_eq_filter hlat hp hready]

/-- Settles O59: all that a unit holds is due within `LAT` edges. -/
theorem heldBeatsLeaveWithinLatency : Obligations.HeldBeatsLeaveWithinLatency := by
  constructor
  · intro s pins rest _ _ hflow hl hlen hpins hs
    have hrun := run_delivers_due encRunsEdges pins hflow hl hlen.le hpins hs
    rwa [hlen, due_all] at hrun
  · intro s pins rest _ _ hflow hl hlen hpins hs
    have hrun := run_delivers_due decRunsEdges pins hflow hl hlen.le hpins hs
    rwa [hlen, due_all] at hrun

end
